-- ==== Sys2Proof/Word.lean ====
section
/-! DEFINITION. The word types of the engine (spec/00_scope.md R12): every value is an unsigned
integer of a stated width. Registers and memory bytes are 8 bits; `pc`, `index`, stack entries and
the instruction word are 16 bits; an address immediate is 12 bits. -/

namespace Sys2Proof

/-- A memory byte, a general register or a timer. -/
abbrev Byte := BitVec 8

/-- `pc`, `index`, a call-stack entry, or an instruction word. -/
abbrev Word := BitVec 16

/-- The address immediate `NNN`. -/
abbrev Addr := BitVec 12

/-- A 4-bit field of an instruction word that is no register number. -/
abbrev Nibble := BitVec 4

/-- The number of a general register, V0 to V15 (10_state.md R21). -/
abbrev Reg := Fin 16

/-- V15, the flag register (10_state.md R23). -/
abbrev flagReg : Reg := 15

end Sys2Proof
end

