-- ==== Sys2Proof/Syntax.lean ====
section
/-! DEFINITION. The instructions: one constructor per row of spec/opcode_table.json, in its order.
The first 18 are the implemented subset (00_scope.md R5); the last 17 are the words that
spec/30_encoding.md R92 calls unimplemented, whose whole effect is to raise UnimplementedOpcode. -/

namespace Sys2Proof

/-- An instruction with its decoded fields. `shr` and `shl` keep the Y field that their handlers
ignore (30_encoding.md R93), so that no bit of a word is lost by decoding.
DESIGN CHOICE (log entry 6). -/
inductive Instr where
  /-- `00E0`, 40_flow.md R110. -/
  | cls
  /-- `00EE`, 40_flow.md R111. -/
  | ret
  /-- `1nnn`, 40_flow.md R112. -/
  | jp (nnn : Addr)
  /-- `2nnn`, 40_flow.md R113. -/
  | call (nnn : Addr)
  /-- `3xkk`, 41_skip.md R121. -/
  | seImm (x : Reg) (kk : Byte)
  /-- `4xkk`, 41_skip.md R122. -/
  | sneImm (x : Reg) (kk : Byte)
  /-- `5xy0`, 41_skip.md R123. -/
  | seReg (x y : Reg)
  /-- `6xkk`, 42_immediate.md R130. -/
  | ldImm (x : Reg) (kk : Byte)
  /-- `7xkk`, 42_immediate.md R131. -/
  | addImm (x : Reg) (kk : Byte)
  /-- `8xy0`, 43_register_alu.md R141. -/
  | ldReg (x y : Reg)
  /-- `8xy1`, 43_register_alu.md R142. -/
  | orReg (x y : Reg)
  /-- `8xy2`, 43_register_alu.md R143. -/
  | andReg (x y : Reg)
  /-- `8xy3`, 43_register_alu.md R144. -/
  | xorReg (x y : Reg)
  /-- `8xy4`, 43_register_alu.md R145. -/
  | addReg (x y : Reg)
  /-- `8xy5`, 43_register_alu.md R146. -/
  | subReg (x y : Reg)
  /-- `8xy6`, 43_register_alu.md R147. -/
  | shr (x yIgnored : Reg)
  /-- `8xy7`, 43_register_alu.md R148. -/
  | subnReg (x y : Reg)
  /-- `8xyE`, 43_register_alu.md R149. -/
  | shl (x yIgnored : Reg)
  /-- `0nnn` other than `00E0` and `00EE` (SYS addr). -/
  | sys (nnn : Addr)
  /-- `9xy0` (SNE Vx,Vy). -/
  | sneReg (x y : Reg)
  /-- `Annn` (LD I,addr). -/
  | ldI (nnn : Addr)
  /-- `Bnnn` (JP V0,addr). -/
  | jpV0 (nnn : Addr)
  /-- `Cxkk` (RND Vx,byte). -/
  | rnd (x : Reg) (kk : Byte)
  /-- `Dxyn` (DRW Vx,Vy,nibble). -/
  | drw (x y : Reg) (n : Nibble)
  /-- `Ex9E` (SKP Vx). -/
  | skp (x : Reg)
  /-- `ExA1` (SKNP Vx). -/
  | sknp (x : Reg)
  /-- `Fx07` (LD Vx,DT). -/
  | ldVxDt (x : Reg)
  /-- `Fx0A` (LD Vx,K). -/
  | ldVxK (x : Reg)
  /-- `Fx15` (LD DT,Vx). -/
  | ldDtVx (x : Reg)
  /-- `Fx18` (LD ST,Vx). -/
  | ldStVx (x : Reg)
  /-- `Fx1E` (ADD I,Vx). -/
  | addI (x : Reg)
  /-- `Fx29` (LD F,Vx). -/
  | ldF (x : Reg)
  /-- `Fx33` (LD B,Vx). -/
  | ldB (x : Reg)
  /-- `Fx55` (LD [I],Vx). -/
  | ldMemVx (x : Reg)
  /-- `Fx65` (LD Vx,[I]). -/
  | ldVxMem (x : Reg)
  deriving DecidableEq, Repr

end Sys2Proof
end

