-- ==== Sys2Proof/Decode.lean ====
section
/-! DEFINITION. Decoding and encoding of the 16-bit instruction word (spec/30_encoding.md). The
bit patterns other than 6xkk and 7xkk are the spec's decision D1 (log entry 5). -/

namespace Sys2Proof

/-! ### Fields of the word (30_encoding.md R81, R87) -/

/-- `F = w[15:12]`, the family selector. -/
def fieldF (w : Word) : Nibble := w.extractLsb' 12 4

/-- `X = w[11:8]`, a register number. -/
def fieldX (w : Word) : Reg := (w.extractLsb' 8 4).toFin

/-- `Y = w[7:4]`, a register number. -/
def fieldY (w : Word) : Reg := (w.extractLsb' 4 4).toFin

/-- `N = w[3:0]`, the low nibble. -/
def fieldN (w : Word) : Nibble := w.extractLsb' 0 4

/-- `KK = w[7:0]`, the byte immediate or sub-selector. -/
def fieldKK (w : Word) : Byte := w.extractLsb' 0 8

/-- `NNN = w[11:0]`, the address immediate. -/
def fieldNNN (w : Word) : Addr := w.extractLsb' 0 12

/-! ### Decoding -/

/-- Why bytes are no instruction. -/
inductive DecodeError where
  /-- The word matches no pattern (30_encoding.md R91); the step raises UnrecognizedOpcode. Safe:
  the spec gives such a word no other effect. -/
  | unrecognized (w : Word)
  /-- Fewer than the two bytes an instruction always takes (30_encoding.md R80). The step never
  meets this: it fetches two bytes or faults before. Safe. DESIGN CHOICE (log entry 10). -/
  | truncated
  deriving DecidableEq, Repr

/-- Second level of family 0x0: the whole word (30_encoding.md R88, R89). -/
def decodeFamily0 (w : Word) : Except DecodeError Instr :=
  if w = 0x00E0#16 then .ok .cls
  else if w = 0x00EE#16 then .ok .ret
  else .ok (.sys (fieldNNN w))

/-- Family 0x5 also checks N = 0 (30_encoding.md R88, R90). -/
def decodeFamily5 (w : Word) : Except DecodeError Instr :=
  match fieldN w with
  | 0x0#4 => .ok (.seReg (fieldX w) (fieldY w))
  | _ => .error (.unrecognized w)

/-- Second level of family 0x8: the low nibble (30_encoding.md R88, R89). -/
def decodeFamily8 (w : Word) : Except DecodeError Instr :=
  match fieldN w with
  | 0x0#4 => .ok (.ldReg (fieldX w) (fieldY w))
  | 0x1#4 => .ok (.orReg (fieldX w) (fieldY w))
  | 0x2#4 => .ok (.andReg (fieldX w) (fieldY w))
  | 0x3#4 => .ok (.xorReg (fieldX w) (fieldY w))
  | 0x4#4 => .ok (.addReg (fieldX w) (fieldY w))
  | 0x5#4 => .ok (.subReg (fieldX w) (fieldY w))
  | 0x6#4 => .ok (.shr (fieldX w) (fieldY w))
  | 0x7#4 => .ok (.subnReg (fieldX w) (fieldY w))
  | 0xE#4 => .ok (.shl (fieldX w) (fieldY w))
  | _ => .error (.unrecognized w)

/-- Family 0x9: 9xy0 names SNE Vx,Vy (30_encoding.md R89, R92). -/
def decodeFamily9 (w : Word) : Except DecodeError Instr :=
  match fieldN w with
  | 0x0#4 => .ok (.sneReg (fieldX w) (fieldY w))
  | _ => .error (.unrecognized w)

/-- Family 0xE: the low byte (30_encoding.md R89, R92). -/
def decodeFamilyE (w : Word) : Except DecodeError Instr :=
  match fieldKK w with
  | 0x9E#8 => .ok (.skp (fieldX w))
  | 0xA1#8 => .ok (.sknp (fieldX w))
  | _ => .error (.unrecognized w)

/-- Family 0xF: the low byte (30_encoding.md R89, R92). -/
def decodeFamilyF (w : Word) : Except DecodeError Instr :=
  match fieldKK w with
  | 0x07#8 => .ok (.ldVxDt (fieldX w))
  | 0x0A#8 => .ok (.ldVxK (fieldX w))
  | 0x15#8 => .ok (.ldDtVx (fieldX w))
  | 0x18#8 => .ok (.ldStVx (fieldX w))
  | 0x1E#8 => .ok (.addI (fieldX w))
  | 0x29#8 => .ok (.ldF (fieldX w))
  | 0x33#8 => .ok (.ldB (fieldX w))
  | 0x55#8 => .ok (.ldMemVx (fieldX w))
  | 0x65#8 => .ok (.ldVxMem (fieldX w))
  | _ => .error (.unrecognized w)

/-- `Decode(w)` of 30_encoding.md R89, a total function of the word alone (R97). The last arm is
family 0xF, the one family the arms before it leave. -/
def decodeWord (w : Word) : Except DecodeError Instr :=
  match fieldF w with
  | 0x0#4 => decodeFamily0 w
  | 0x1#4 => .ok (.jp (fieldNNN w))
  | 0x2#4 => .ok (.call (fieldNNN w))
  | 0x3#4 => .ok (.seImm (fieldX w) (fieldKK w))
  | 0x4#4 => .ok (.sneImm (fieldX w) (fieldKK w))
  | 0x5#4 => decodeFamily5 w
  | 0x6#4 => .ok (.ldImm (fieldX w) (fieldKK w))
  | 0x7#4 => .ok (.addImm (fieldX w) (fieldKK w))
  | 0x8#4 => decodeFamily8 w
  | 0x9#4 => decodeFamily9 w
  | 0xA#4 => .ok (.ldI (fieldNNN w))
  | 0xB#4 => .ok (.jpV0 (fieldNNN w))
  | 0xC#4 => .ok (.rnd (fieldX w) (fieldKK w))
  | 0xD#4 => .ok (.drw (fieldX w) (fieldY w) (fieldN w))
  | 0xE#4 => decodeFamilyE w
  | _ => decodeFamilyF w

/-- The word of two bytes, the one at the lower address first: the high byte comes first
(20_memory.md R64). -/
def wordOfBytes (hi lo : Byte) : Word := hi ++ lo

/-- Decode a byte list: the instruction, and the bytes after the two it takes (30_encoding.md
R80: "a decoder always consumes exactly 2 bytes"). -/
def decodeBytes (bytes : List Byte) : Except DecodeError (Instr × List Byte) :=
  match bytes with
  | hi :: lo :: rest =>
    match decodeWord (wordOfBytes hi lo) with
    | .ok i => .ok (i, rest)
    | .error e => .error e
  | [_] => .error .truncated
  | [] => .error .truncated

/-! ### Encoding (30_encoding.md R82, R90, R92, R95) -/

/-- A register number as the four bits that name it. -/
def regBits (x : Reg) : Nibble := BitVec.ofFin x

/-- Format `addr`: F, NNN. -/
def encodeAddr (f : Nibble) (nnn : Addr) : Word := f ++ nnn

/-- Formats `reg_imm` and `reg`: F, X, KK. -/
def encodeRegImm (f : Nibble) (x : Reg) (kk : Byte) : Word := f ++ (regBits x ++ kk)

/-- Formats `reg_reg`, `reg_shift` and `reg_reg_n`: F, X, Y, N. -/
def encodeRegReg (f : Nibble) (x y : Reg) (n : Nibble) : Word :=
  f ++ (regBits x ++ (regBits y ++ n))

/-- The word of an instruction. -/
def encode (i : Instr) : Word :=
  match i with
  | .cls => 0x00E0#16
  | .ret => 0x00EE#16
  | .jp nnn => encodeAddr 0x1#4 nnn
  | .call nnn => encodeAddr 0x2#4 nnn
  | .seImm x kk => encodeRegImm 0x3#4 x kk
  | .sneImm x kk => encodeRegImm 0x4#4 x kk
  | .seReg x y => encodeRegReg 0x5#4 x y 0x0#4
  | .ldImm x kk => encodeRegImm 0x6#4 x kk
  | .addImm x kk => encodeRegImm 0x7#4 x kk
  | .ldReg x y => encodeRegReg 0x8#4 x y 0x0#4
  | .orReg x y => encodeRegReg 0x8#4 x y 0x1#4
  | .andReg x y => encodeRegReg 0x8#4 x y 0x2#4
  | .xorReg x y => encodeRegReg 0x8#4 x y 0x3#4
  | .addReg x y => encodeRegReg 0x8#4 x y 0x4#4
  | .subReg x y => encodeRegReg 0x8#4 x y 0x5#4
  | .shr x y => encodeRegReg 0x8#4 x y 0x6#4
  | .subnReg x y => encodeRegReg 0x8#4 x y 0x7#4
  | .shl x y => encodeRegReg 0x8#4 x y 0xE#4
  | .sys nnn => encodeAddr 0x0#4 nnn
  | .sneReg x y => encodeRegReg 0x9#4 x y 0x0#4
  | .ldI nnn => encodeAddr 0xA#4 nnn
  | .jpV0 nnn => encodeAddr 0xB#4 nnn
  | .rnd x kk => encodeRegImm 0xC#4 x kk
  | .drw x y n => encodeRegReg 0xD#4 x y n
  | .skp x => encodeRegImm 0xE#4 x 0x9E#8
  | .sknp x => encodeRegImm 0xE#4 x 0xA1#8
  | .ldVxDt x => encodeRegImm 0xF#4 x 0x07#8
  | .ldVxK x => encodeRegImm 0xF#4 x 0x0A#8
  | .ldDtVx x => encodeRegImm 0xF#4 x 0x15#8
  | .ldStVx x => encodeRegImm 0xF#4 x 0x18#8
  | .addI x => encodeRegImm 0xF#4 x 0x1E#8
  | .ldF x => encodeRegImm 0xF#4 x 0x29#8
  | .ldB x => encodeRegImm 0xF#4 x 0x33#8
  | .ldMemVx x => encodeRegImm 0xF#4 x 0x55#8
  | .ldVxMem x => encodeRegImm 0xF#4 x 0x65#8

/-- The high byte of a word, stored at the lower address (20_memory.md R64). -/
def highByte (w : Word) : Byte := w.extractLsb' 8 8

/-- The low byte of a word. -/
def lowByte (w : Word) : Byte := w.extractLsb' 0 8

/-- The two bytes of an instruction, in address order. -/
def encodeBytes (i : Instr) : List Byte := [highByte (encode i), lowByte (encode i)]

/-- `match` of the instruction's row in 30_encoding.md R90 and opcode_table.json. -/
def matchBits (i : Instr) : Word :=
  match i with
  | .cls => 0x00E0#16 | .ret => 0x00EE#16 | .jp _ => 0x1000#16 | .call _ => 0x2000#16
  | .seImm _ _ => 0x3000#16 | .sneImm _ _ => 0x4000#16 | .seReg _ _ => 0x5000#16
  | .ldImm _ _ => 0x6000#16 | .addImm _ _ => 0x7000#16
  | .ldReg _ _ => 0x8000#16 | .orReg _ _ => 0x8001#16 | .andReg _ _ => 0x8002#16
  | .xorReg _ _ => 0x8003#16 | .addReg _ _ => 0x8004#16 | .subReg _ _ => 0x8005#16
  | .shr _ _ => 0x8006#16 | .subnReg _ _ => 0x8007#16 | .shl _ _ => 0x800E#16
  | .sys _ => 0x0000#16 | .sneReg _ _ => 0x9000#16 | .ldI _ => 0xA000#16 | .jpV0 _ => 0xB000#16
  | .rnd _ _ => 0xC000#16 | .drw _ _ _ => 0xD000#16 | .skp _ => 0xE09E#16 | .sknp _ => 0xE0A1#16
  | .ldVxDt _ => 0xF007#16 | .ldVxK _ => 0xF00A#16 | .ldDtVx _ => 0xF015#16 | .ldStVx _ => 0xF018#16
  | .addI _ => 0xF01E#16 | .ldF _ => 0xF029#16 | .ldB _ => 0xF033#16 | .ldMemVx _ => 0xF055#16
  | .ldVxMem _ => 0xF065#16

/-- `mask` of the instruction's row: the bits its pattern fixes. -/
def maskBits (i : Instr) : Word :=
  match i with
  | .cls | .ret => 0xFFFF#16
  | .jp _ | .call _ | .seImm _ _ | .sneImm _ _ | .ldImm _ _ | .addImm _ _ | .sys _ | .ldI _
  | .jpV0 _ | .rnd _ _ | .drw _ _ _ => 0xF000#16
  | .seReg _ _ | .ldReg _ _ | .orReg _ _ | .andReg _ _ | .xorReg _ _ | .addReg _ _
  | .subReg _ _ | .shr _ _ | .subnReg _ _ | .shl _ _ | .sneReg _ _ => 0xF00F#16
  | .skp _ | .sknp _ | .ldVxDt _ | .ldVxK _ | .ldDtVx _ | .ldStVx _ | .addI _ | .ldF _
  | .ldB _ | .ldMemVx _ | .ldVxMem _ => 0xF0FF#16

/-- What the decoder reads from an instruction of `nbits` bits whose value is `w`, laid out in
memory order (the high byte first). -/
def decodeTableWord (nbits w : Nat) : Option Instr :=
  match decodeBytes [highByte (BitVec.ofNat 16 (w % 2 ^ nbits)),
      lowByte (BitVec.ofNat 16 (w % 2 ^ nbits))] with
  | .ok (i, _) => some i
  | .error _ => none

end Sys2Proof
end

