-- ==== Sys2Proof/Config.lean ====
section
/-! DEFINITION. What is fixed for one machine: the sizes of spec/00_scope.md R7, and the open
parameters of R8 as constants with no body, so that no proof can see their value. -/

namespace Sys2Proof.Config

/-- 00_scope.md R7: memory size in bytes. -/
abbrev memorySize : Nat := 4096

/-- 00_scope.md R7: the largest valid fetch address, 0xFFE. -/
abbrev maxFetch : Nat := 0xFFE

/-- 00_scope.md R7: the program origin, reset pc and ROM load offset. -/
abbrev programOrigin : Nat := 0x200

/-- 00_scope.md R7: the number of framebuffer cells, 64 columns by 32 rows. -/
abbrev cells : Nat := 2048

/-- Open parameter `fontBase` (00_scope.md R8). DESIGN CHOICE (log entry 2): its type admits the
addresses 0 to 0x200, exactly those for which some font fits below 0x200. -/
opaque fontBase : Fin 0x201

/-- The bytes behind the open parameter `fontBytes`. DESIGN CHOICE (log entry 2). -/
opaque fontSource : List Byte

/-- Open parameter `fontBytes` (00_scope.md R8), cut so that `fontBase + len(fontBytes) <= 0x200`
holds of every value; a font that fits is left as it is. -/
def fontBytes : List Byte := fontSource.take (0x200 - fontBase.val)

/-- The number behind `pixelOnWord`. DESIGN CHOICE (log entry 3). -/
opaque pixelOnIndex : Fin 0xFFFFFFFF

/-- Open parameter `pixelOnWord` (00_scope.md R8): a 32-bit word that is not 0. Every such word is
`n + 1` for exactly one `n` below 2^32 - 1. -/
def pixelOnWord : BitVec 32 := BitVec.ofNat 32 (pixelOnIndex.val + 1)

/-- The oracle `randomDraw` (00_scope.md R8, 10_state.md R40): the byte answered to query number
`n`. It is no field of the state, and no instruction in scope queries it (log entry 4). -/
opaque randomDraw : Nat → Byte

end Sys2Proof.Config
end

