-- ==== Sys2Proof/Machine/State.lean ====
section
/-! DEFINITION. Machine State: the one record of spec/10_state.md R20, "these fields and no
others", as plain data, and its value after `Reset` (70_reset_and_hazards.md R190). -/

namespace Sys2Proof.Machine

/-- The five fault causes (60_exceptions.md R161). -/
inductive FaultCause where
  /-- Code 1: a fetch with `pc > 0xFFE` (30_encoding.md R85). -/
  | fetchOutOfRange
  /-- Code 2: a word that matches no pattern (30_encoding.md R91). -/
  | unrecognizedOpcode
  /-- Code 3: a word of an instruction outside the subset (30_encoding.md R92). -/
  | unimplementedOpcode
  /-- Code 4: CALL with `sp = 16` (40_flow.md R113). -/
  | stackOverflow
  /-- Code 5: RET with `sp = 0` (40_flow.md R111). -/
  | stackUnderflow
  deriving DecidableEq, Repr

/-- The fault record (60_exceptions.md R164). -/
structure FaultRecord where
  /-- The cause of R161. -/
  cause : FaultCause
  /-- The pc at the start of the faulting cycle. -/
  faultPc : Word
  /-- The fetched word, or none for FetchOutOfRange. -/
  word : Option Word
  deriving DecidableEq, Repr

/-- Memory as (address, byte) pairs in canonical form: addresses strictly rising, and no pair
equal to what an unlisted address reads as (`resetByte`, Machine/Ops.lean). -/
abbrev Memory := List Host.Cell

/-- Machine State (10_state.md R20). -/
structure State where
  /-- V0 to V15 (R21); V15 is the flag register (R23). -/
  V : Vector Byte 16
  /-- The 4096 bytes of memory (R42). -/
  memory : Memory
  /-- The index register (R32). -/
  index : Word
  /-- The program counter (R25). -/
  pc : Word
  /-- The call stack (R34). -/
  stack : Vector Word 16
  /-- The stack pointer, 0 to 16: the next free slot (R33, 90_conflicts.md C1); its type
  holds the range (log entry 9). -/
  sp : Fin 17
  /-- The delay timer (R35). -/
  delayTimer : Byte
  /-- The sound timer (R36). -/
  soundTimer : Byte
  /-- The key states (R37). -/
  keypad : Vector Bool 16
  /-- The framebuffer cells (R38); cell c stands at column `c mod 64` and row `c div 64`. -/
  fb : Vector Bool 2048
  /-- The most recently fetched word of a cycle that completed (R39). -/
  opcode : Word
  /-- None, or the record of the fault that halted the engine (R41). -/
  fault : Option FaultRecord
  deriving DecidableEq, Repr

/-- Why the machine has no step. -/
inductive Fault where
  /-- The engine is halted: a fault is recorded, so `Cycle` has no step and returns the record
  (60_exceptions.md R165). Raised by `step` alone, on every state whose `fault` is set, and never
  by an instruction's meaning. Safe: no claim speaks of a run that continues past a fault
  (log entry 1). -/
  | halted (record : FaultRecord)
  deriving DecidableEq, Repr

/-- Why an instruction has no meaning. -/
inductive Refusal where
  /-- The instruction of that mnemonic has no meaning in this model. Raised by nothing: every
  constructor of `Instr` has its meaning. Safe. -/
  | notModelled (mnemonic : String)
  deriving DecidableEq, Repr

/-- The outcome of a meaning or a step. -/
abbrev Outcome := Host.Outcome State Fault Refusal

/-- The machine right after `Reset` (70_reset_and_hazards.md R190, 10_state.md R44). Memory lists
nothing: every address reads its reset byte, the font included (20_memory.md R69, log entry 2). -/
def State.reset : State where
  V := Vector.replicate 16 0x00#8
  memory := []
  index := 0x0000#16
  pc := 0x0200#16
  stack := Vector.replicate 16 0x0000#16
  sp := 0
  delayTimer := 0x00#8
  soundTimer := 0x00#8
  keypad := Vector.replicate 16 false
  fb := Vector.replicate 2048 false
  opcode := 0x0000#16
  fault := none

end Sys2Proof.Machine
end

