-- ==== Sys2Proof/Machine/Ops.lean ====
section
/-! DEFINITION. The named operations over memory, registers, the stack and the program counter,
taking a fault, and the fetch and commit parts of the cycle of spec/30_encoding.md R84. -/

namespace Sys2Proof.Machine

/-! ### Memory (20_memory.md) -/

/-- The byte at an address right after `Reset(fontBase, fontBytes, seed)` (20_memory.md R69): 0x00,
except that the font's bytes stand at its base. The font lies below 0x200 (00_scope.md R8), so every
address from 0x200 up reads zero. -/
def fontByte (base : Nat) (bytes : List Byte) (a : Nat) : Byte :=
  if Config.programOrigin ≤ a then 0x00#8
  else if base ≤ a then bytes.getD (a - base) 0x00#8
  else 0x00#8

/-- What an address reads as while nothing is listed for it: its contents after a `Reset` with the
machine's own parameters (log entry 2). -/
def resetByte (a : Nat) : Byte := fontByte Config.fontBase.val Config.fontBytes a

/-- The canonical form of memory: addresses strictly rising and within 0x000 to 0xFFF, and no
entry equal to what an unlisted address reads as. -/
abbrev Memory.wf (m : Memory) : Prop :=
  m.Pairwise (fun c d => c.1 < d.1) ∧ ∀ c ∈ m, c.1 < Config.memorySize ∧ c.2 ≠ resetByte c.1

/-- The byte at an address. -/
def Memory.read (m : Memory) (a : Nat) : Byte :=
  match m with
  | [] => resetByte a
  | (b, v) :: rest => if b = a then v else Memory.read rest a

/-- Store a byte, keeping the canonical form: storing what an unlisted address reads as removes
the entry. -/
def Memory.write (m : Memory) (a : Nat) (v : Byte) : Memory :=
  match m with
  | [] => if v = resetByte a then [] else [(a, v)]
  | (b, u) :: rest =>
    if b < a then (b, u) :: Memory.write rest a v
    else if b = a then (if v = resetByte a then rest else (a, v) :: rest)
    else if v = resetByte a then (b, u) :: rest
    else (a, v) :: (b, u) :: rest

/-- `MemRead(addr, 1)` (20_memory.md R61): "defined for addr <= 0xFFF only", no side effect. -/
def memRead (a : Nat) (s : State) : Option Byte :=
  if a < Config.memorySize then some (s.memory.read a) else none

/-- `MemWrite(addr, 1, v)` (20_memory.md R62), defined for `addr <= 0xFFF` only. -/
def memWrite (a : Nat) (v : Byte) (s : State) : Option State :=
  if a < Config.memorySize then some { s with memory := s.memory.write a v } else none

/-! ### General registers (10_state.md R21) -/

/-- `x[r]`: read a general register. No register is hardwired. -/
def State.reg (s : State) (r : Reg) : Byte := s.V[r]

/-- `x[r] <- v`: write a general register; no other one changes. -/
def State.setReg (s : State) (r : Reg) (v : Byte) : State := { s with V := s.V.set r v }

/-! ### Program counter (10_state.md R25, R28) -/

/-- `pc <- v`, 16 bits. -/
def State.setPc (s : State) (v : Word) : State := { s with pc := v }

/-! ### Call stack (10_state.md R33, R34) -/

/-- Push `v` at the next free slot and count it, or none when the stack is full (`sp = 16`,
40_flow.md R113). -/
def pushStack (v : Word) (s : State) : Option State :=
  if h : s.sp.val < 16 then
    some { s with stack := s.stack.set s.sp.val v, sp := ⟨s.sp.val + 1, by omega⟩ }
  else none

/-- Pop the top entry, with the state after it, or none when the stack is empty (`sp = 0`,
40_flow.md R111). The entry itself keeps its value (10_state.md R34). -/
def popStack (s : State) : Option (Word × State) :=
  if h : 0 < s.sp.val then
    some (s.stack[s.sp.val - 1], { s with sp := ⟨s.sp.val - 1, by omega⟩ })
  else none

/-! ### Framebuffer (10_state.md R38) -/

/-- Every framebuffer cell off (40_flow.md R110). -/
def clearFramebuffer (s : State) : State := { s with fb := Vector.replicate 2048 false }

/-! ### Faults (60_exceptions.md) -/

/-- The code of a cause (60_exceptions.md R161). -/
def FaultCause.code (c : FaultCause) : Nat :=
  match c with
  | .fetchOutOfRange => 1
  | .unrecognizedOpcode => 2
  | .unimplementedOpcode => 3
  | .stackOverflow => 4
  | .stackUnderflow => 5

/-- Taking a fault (60_exceptions.md R163, R164): `fault` gets the record and every other field
keeps its value. There is no vector, no saved register and no change of mode (R168, R170), and no
instruction returns from a fault: only `Reset` clears it (R165; `Block.apply`). -/
def takeFault (cause : FaultCause) (faultPc : Word) (word : Option Word) (s : State) : State :=
  { s with fault := some { cause := cause, faultPc := faultPc, word := word } }

/-- `raise <Fault>(p, w)` inside a handler: the handler ends with the record set and nothing else
written. On entry `pc = p + 2` (30_encoding.md R86), so p is `pc - 2`, and w is the word that the
instruction's fields spell: a handler does not read `opcode` (R98). DEDUCED (log entry 11). -/
def raiseFault (cause : FaultCause) (i : Instr) (s : State) : Outcome :=
  .next (takeFault cause (s.pc - 2) (some (encode i)) s)

/-! ### The cycle (30_encoding.md R84) -/

/-- Fetch (30_encoding.md R85): the bytes at pc and pc + 1, high byte first, or none when
`pc > 0xFFE`. An odd pc fetches like any other (10_state.md R27). -/
def fetchWord (s : State) : Option Word :=
  if s.pc.toNat > Config.maxFetch then none
  else
    match memRead s.pc.toNat s, memRead (s.pc.toNat + 1) s with
    | some hi, some lo => some (wordOfBytes hi lo)
    | _, _ => none

/-- Advance (30_encoding.md R86, R99): `pc <- (p + 2) mod 2^16` and `opcode <- w`, before
dispatch. -/
def beginCycle (w : Word) (s : State) : State := { s with pc := s.pc + 2, opcode := w }

/-- The end of a cycle that started in `s` and whose handler answered `o`: a completed handler's
state stands; a raised fault discards every write of the cycle and is recorded in `s`
(30_encoding.md R84, 60_exceptions.md R163). -/
def endCycle (s : State) (o : Outcome) : Outcome :=
  match o with
  | .next t =>
    match t.fault with
    | none => .next t
    | some r => .next (takeFault r.cause r.faultPc r.word s)
  | .fault f => .fault f
  | .refused r => .refused r

/-! ### Placing an instruction (log entry 7) -/

/-- Store the two bytes of a word at pc and pc + 1, where the next fetch reads them; nothing
changes when no fetch is possible there (`pc > 0xFFE`). -/
def placeWord (w : Word) (s : State) : State :=
  if s.pc.toNat > Config.maxFetch then s
  else
    { s with memory :=
        (s.memory.write s.pc.toNat (highByte w)).write (s.pc.toNat + 1) (lowByte w) }

end Sys2Proof.Machine
end

