-- ==== Sys2Proof/Machine/Flags.lean ====
section
/-! DEFINITION. The values written to the flag register V15 (spec/10_state.md R29), and the write
itself. V15 is the only flag (R30). -/

namespace Sys2Proof.Machine

/-- `bool(c)`: 1 if the condition holds, else 0 (00_scope.md R13). -/
def boolByte (c : Bool) : Byte := if c then 0x01#8 else 0x00#8

/-- The carry of ADD Vx,Vy: 1 if the 9-bit sum is greater than 255 (43_register_alu.md R145). -/
def carryFlag (a b : Byte) : Byte := boolByte (decide (a.toNat + b.toNat > 255))

/-- The flag of SUB and SUBN: 1 if the minuend is strictly greater than the subtrahend
(43_register_alu.md R146, R148). -/
def greaterFlag (a b : Byte) : Byte := boolByte (decide (a.toNat > b.toNat))

/-- The flag of SHR: bit 0, the bit shifted out (43_register_alu.md R147). -/
def shiftRightFlag (a : Byte) : Byte := a &&& 0x01#8

/-- The flag of SHL: bit 7, the bit shifted out (43_register_alu.md R149). -/
def shiftLeftFlag (a : Byte) : Byte := (a &&& 0x80#8) >>> 7

/-- The flag write, which comes before the write of Vx (43_register_alu.md R140). -/
def setFlag (v : Byte) (s : State) : State := s.setReg flagReg v

end Sys2Proof.Machine
end

