-- ==== Sys2Proof/Machine/Operands.lean ====
section
/-! DEFINITION. The operand forms of spec/30_encoding.md R82 and R83: a register read as Vx or Vy,
the byte immediate, the address immediate, and the relative target of a skip. -/

namespace Sys2Proof.Machine

/-- A register operand, Vx or Vy: any of the 16 registers, V15 included (R83, 10_state.md R22). -/
def regOperand (s : State) (r : Reg) : Byte := s.reg r

/-- `KK` "is used as is, with no extension" (R83). -/
def byteOperand (kk : Byte) : Byte := kk

/-- `NNN` "is zero-extended to 16 bits when it is written to pc" (R83). -/
def addrOperand (nnn : Addr) : Word := nnn.zeroExtend 16

/-- The pc of a taken skip: the already-advanced pc plus 2, 16 bits (41_skip.md R120). -/
def skipTarget (s : State) : Word := s.pc + 2

/-- Skip the next word when `c` holds (41_skip.md R120). -/
def skipIf (c : Bool) (s : State) : State := if c then s.setPc (skipTarget s) else s

end Sys2Proof.Machine
end

