-- ==== Sys2Proof/Machine/Alu.lean ====
section
/-! DEFINITION. The register-register operations (spec/43_register_alu.md R141 to R149).
Statements run in the order written (00_scope.md R14): a flag-setting handler writes V15 first,
and every later read sees that write. Only ADD takes its sum before any write (R140). -/

namespace Sys2Proof.Machine

/-- LD Vx,Vy, R141. -/
def execLdReg (x y : Reg) (s : State) : Outcome := .next (s.setReg x (regOperand s y))

/-- OR Vx,Vy, R142. -/
def execOrReg (x y : Reg) (s : State) : Outcome :=
  .next (s.setReg x (regOperand s x ||| regOperand s y))

/-- AND Vx,Vy, R143. -/
def execAndReg (x y : Reg) (s : State) : Outcome :=
  .next (s.setReg x (regOperand s x &&& regOperand s y))

/-- XOR Vx,Vy, R144. -/
def execXorReg (x y : Reg) (s : State) : Outcome :=
  .next (s.setReg x (regOperand s x ^^^ regOperand s y))

/-- ADD Vx,Vy, R145: the sum is taken from the registers before any write. -/
def execAddReg (x y : Reg) (s : State) : Outcome :=
  let sum := regOperand s x + regOperand s y
  let t := setFlag (carryFlag (regOperand s x) (regOperand s y)) s
  .next (t.setReg x sum)

/-- SUB Vx,Vy, R146: the difference is taken after the V15 write. -/
def execSubReg (x y : Reg) (s : State) : Outcome :=
  let t := setFlag (greaterFlag (regOperand s x) (regOperand s y)) s
  .next (t.setReg x (regOperand t x - regOperand t y))

/-- SHR Vx, R147: the shift reads Vx after the V15 write; Y is ignored. -/
def execShr (x _yIgnored : Reg) (s : State) : Outcome :=
  let t := setFlag (shiftRightFlag (regOperand s x)) s
  .next (t.setReg x (regOperand t x >>> 1))

/-- SUBN Vx,Vy, R148: the difference is taken after the V15 write. -/
def execSubnReg (x y : Reg) (s : State) : Outcome :=
  let t := setFlag (greaterFlag (regOperand s y) (regOperand s x)) s
  .next (t.setReg x (regOperand t y - regOperand t x))

/-- SHL Vx, R149: the shift reads Vx after the V15 write; Y is ignored. -/
def execShl (x _yIgnored : Reg) (s : State) : Outcome :=
  let t := setFlag (shiftLeftFlag (regOperand s x)) s
  .next (t.setReg x (regOperand t x <<< 1))

end Sys2Proof.Machine
end

