-- ==== Sys2Proof/Machine/Flow.lean ====
section
/-! DEFINITION. Screen clear and control transfer (spec/40_flow.md R110 to R113). On entry
`pc = p + 2`, where p is the fetch address (30_encoding.md R86). -/

namespace Sys2Proof.Machine

/-- CLS, R110: every framebuffer cell off. -/
def execCls (s : State) : Outcome := .next (clearFramebuffer s)

/-- RET, R111: pop the return address into pc, or StackUnderflow when `sp == 0`. -/
def execRet (s : State) : Outcome :=
  match popStack s with
  | some (target, t) => .next (t.setPc target)
  | none => raiseFault .stackUnderflow .ret s

/-- JP addr, R112: `pc <- zext_16(NNN)`. -/
def execJp (nnn : Addr) (s : State) : Outcome := .next (s.setPc (addrOperand nnn))

/-- CALL addr, R113: push the already-advanced pc and jump, or StackOverflow when `sp == 16`. -/
def execCall (nnn : Addr) (s : State) : Outcome :=
  match pushStack s.pc s with
  | some t => .next (t.setPc (addrOperand nnn))
  | none => raiseFault .stackOverflow (.call nnn) s

end Sys2Proof.Machine
end

