-- ==== Sys2Proof/Machine/Immediate.lean ====
section
/-! DEFINITION. The register-immediate operations (spec/42_immediate.md R130, R131). Neither
changes pc or writes a flag. -/

namespace Sys2Proof.Machine

/-- LD Vx,byte, R130: `x[X] <- KK`. -/
def execLdImm (x : Reg) (kk : Byte) (s : State) : Outcome := .next (s.setReg x (byteOperand kk))

/-- ADD Vx,byte, R131: `x[X] <- (x[X] + KK) mod 2^8`, no flag. -/
def execAddImm (x : Reg) (kk : Byte) (s : State) : Outcome :=
  .next (s.setReg x (regOperand s x + byteOperand kk))

end Sys2Proof.Machine
end

