-- ==== Sys2Proof/Machine/Skip.lean ====
section
/-! DEFINITION. The conditional skips (spec/41_skip.md R120 to R123). -/

namespace Sys2Proof.Machine

/-- SE Vx,byte, R121: skip if `x[X] == KK`. -/
def execSeImm (x : Reg) (kk : Byte) (s : State) : Outcome :=
  .next (skipIf (regOperand s x == byteOperand kk) s)

/-- SNE Vx,byte, R122: skip if `x[X] != KK`. -/
def execSneImm (x : Reg) (kk : Byte) (s : State) : Outcome :=
  .next (skipIf (regOperand s x != byteOperand kk) s)

/-- SE Vx,Vy, R123: skip if `x[X] == x[Y]`. -/
def execSeReg (x y : Reg) (s : State) : Outcome :=
  .next (skipIf (regOperand s x == regOperand s y) s)

end Sys2Proof.Machine
end

