-- ==== Sys2Proof/Machine/Unimplemented.lean ====
section
/-! DEFINITION. The 17 instructions outside the subset (spec/30_encoding.md R92): "Each raises
UnimplementedOpcode". That fault is the whole effect the spec gives them (60_exceptions.md R161,
code 3, and R163), and it is taken here as any other fault is. -/

namespace Sys2Proof.Machine

/-- UnimplementedOpcode for the instruction `i` (60_exceptions.md R161, code 3). -/
def raiseUnimplemented (i : Instr) (s : State) : Outcome := raiseFault .unimplementedOpcode i s

/-- SYS addr, `0nnn`, R92. -/
def execSys (nnn : Addr) (s : State) : Outcome := raiseUnimplemented (.sys nnn) s

/-- SNE Vx,Vy, `9xy0`, R92. -/
def execSneReg (x y : Reg) (s : State) : Outcome := raiseUnimplemented (.sneReg x y) s

/-- LD I,addr, `Annn`, R92. -/
def execLdI (nnn : Addr) (s : State) : Outcome := raiseUnimplemented (.ldI nnn) s

/-- JP V0,addr, `Bnnn`, R92. -/
def execJpV0 (nnn : Addr) (s : State) : Outcome := raiseUnimplemented (.jpV0 nnn) s

/-- RND Vx,byte, `Cxkk`, R92. -/
def execRnd (x : Reg) (kk : Byte) (s : State) : Outcome := raiseUnimplemented (.rnd x kk) s

/-- DRW Vx,Vy,nibble, `Dxyn`, R92. -/
def execDrw (x y : Reg) (n : Nibble) (s : State) : Outcome := raiseUnimplemented (.drw x y n) s

/-- SKP Vx, `Ex9E`, R92. -/
def execSkp (x : Reg) (s : State) : Outcome := raiseUnimplemented (.skp x) s

/-- SKNP Vx, `ExA1`, R92. -/
def execSknp (x : Reg) (s : State) : Outcome := raiseUnimplemented (.sknp x) s

/-- LD Vx,DT, `Fx07`, R92. -/
def execLdVxDt (x : Reg) (s : State) : Outcome := raiseUnimplemented (.ldVxDt x) s

/-- LD Vx,K, `Fx0A`, R92. -/
def execLdVxK (x : Reg) (s : State) : Outcome := raiseUnimplemented (.ldVxK x) s

/-- LD DT,Vx, `Fx15`, R92. -/
def execLdDtVx (x : Reg) (s : State) : Outcome := raiseUnimplemented (.ldDtVx x) s

/-- LD ST,Vx, `Fx18`, R92. -/
def execLdStVx (x : Reg) (s : State) : Outcome := raiseUnimplemented (.ldStVx x) s

/-- ADD I,Vx, `Fx1E`, R92. -/
def execAddI (x : Reg) (s : State) : Outcome := raiseUnimplemented (.addI x) s

/-- LD F,Vx, `Fx29`, R92. -/
def execLdF (x : Reg) (s : State) : Outcome := raiseUnimplemented (.ldF x) s

/-- LD B,Vx, `Fx33`, R92. -/
def execLdB (x : Reg) (s : State) : Outcome := raiseUnimplemented (.ldB x) s

/-- LD [I],Vx, `Fx55`, R92. -/
def execLdMemVx (x : Reg) (s : State) : Outcome := raiseUnimplemented (.ldMemVx x) s

/-- LD Vx,[I], `Fx65`, R92. -/
def execLdVxMem (x : Reg) (s : State) : Outcome := raiseUnimplemented (.ldVxMem x) s

end Sys2Proof.Machine
end

