-- ==== Sys2Proof/Machine/Step.lean ====
section
/-! DEFINITION. One step is one `Cycle()` (spec/30_encoding.md R84): fetch, advance, decode,
execute. The checks come in the order of 60_exceptions.md R167. What `exec` does and what `step`
adds is log entry 13; the host's other operations are no step (log entry 12). -/

namespace Sys2Proof.Machine

/-- One cycle. A halted engine has no step (60_exceptions.md R165). A cycle that faults is a next
state in which only `fault` has changed (R163). -/
def step (s : State) : Host.Outcome State Fault Refusal :=
  match s.fault with
  | some r => .fault (.halted r)
  | none =>
    match fetchWord s with
    | none => .next (takeFault .fetchOutOfRange s.pc none s)
    | some w =>
      match decodeWord w with
      | .error _ => .next (takeFault .unrecognizedOpcode s.pc (some w) s)
      | .ok i => endCycle s (exec i (beginCycle w s))

/-- `s` with the `nbits`-bit instruction `w` stored at pc, where `step` fetches next (log
entry 7). Every instruction has 16 bits. -/
def State.withFetchWord (s : State) (nbits w : Nat) : State :=
  placeWord (BitVec.ofNat 16 (w % 2 ^ nbits)) s

end Sys2Proof.Machine
end

