-- ==== Sys2Proof/Machine/Assembly.lean ====
section
/-! DEFINITION. The assembler syntax of spec/30_encoding.md R95. It has no semantics: the machine
never reads it. There are no pseudo-instructions (R96). How a text is assembled is log entry 14. -/

namespace Sys2Proof.Machine

/-- The upper-case hexadecimal digit of a nibble. -/
def hexDigit (n : Nibble) : String :=
  match n.toNat with
  | 10 => "A"
  | 11 => "B"
  | 12 => "C"
  | 13 => "D"
  | 14 => "E"
  | 15 => "F"
  | k => Nat.repr k

/-- A byte immediate: `0x` and two hexadecimal digits. -/
def byteText (kk : Byte) : String :=
  "0x" ++ hexDigit (kk.extractLsb' 4 4) ++ hexDigit (kk.extractLsb' 0 4)

/-- An address: `0x` and three hexadecimal digits. -/
def addrText (nnn : Addr) : String :=
  "0x" ++ hexDigit (nnn.extractLsb' 8 4) ++ hexDigit (nnn.extractLsb' 4 4)
    ++ hexDigit (nnn.extractLsb' 0 4)

/-- A register: `V0` to `V15`, in decimal. -/
def regText (x : Reg) : String := "V" ++ Nat.repr x.val

/-- The text of an instruction of the subset; R95 gives the 17 others none. `SHR Vx` and `SHL Vx`
are printed "whatever the Y field holds". -/
def disassemble (i : Instr) : Option String :=
  match i with
  | .cls => some "CLS"
  | .ret => some "RET"
  | .jp nnn => some ("JP " ++ addrText nnn)
  | .call nnn => some ("CALL " ++ addrText nnn)
  | .seImm x kk => some ("SE " ++ regText x ++ "," ++ byteText kk)
  | .sneImm x kk => some ("SNE " ++ regText x ++ "," ++ byteText kk)
  | .seReg x y => some ("SE " ++ regText x ++ "," ++ regText y)
  | .ldImm x kk => some ("LD " ++ regText x ++ "," ++ byteText kk)
  | .addImm x kk => some ("ADD " ++ regText x ++ "," ++ byteText kk)
  | .ldReg x y => some ("LD " ++ regText x ++ "," ++ regText y)
  | .orReg x y => some ("OR " ++ regText x ++ "," ++ regText y)
  | .andReg x y => some ("AND " ++ regText x ++ "," ++ regText y)
  | .xorReg x y => some ("XOR " ++ regText x ++ "," ++ regText y)
  | .addReg x y => some ("ADD " ++ regText x ++ "," ++ regText y)
  | .subReg x y => some ("SUB " ++ regText x ++ "," ++ regText y)
  | .shr x _ => some ("SHR " ++ regText x)
  | .subnReg x y => some ("SUBN " ++ regText x ++ "," ++ regText y)
  | .shl x _ => some ("SHL " ++ regText x)
  | .sys _ | .sneReg _ _ | .ldI _ | .jpV0 _ | .rnd _ _ | .drw _ _ _ | .skp _ | .sknp _
  | .ldVxDt _ | .ldVxK _ | .ldDtVx _ | .ldStVx _ | .addI _ | .ldF _ | .ldB _ | .ldMemVx _
  | .ldVxMem _ => none

/-- The instruction that the text of `i` assembles to: `i` itself, but `SHR Vx` and `SHL Vx`
"assemble Y = 0". -/
def reassembled (i : Instr) : Instr :=
  match i with
  | .shr x _ => .shr x 0
  | .shl x _ => .shl x 0
  | .cls | .ret | .jp _ | .call _ | .seImm _ _ | .sneImm _ _ | .seReg _ _ | .ldImm _ _
  | .addImm _ _ | .ldReg _ _ | .orReg _ _ | .andReg _ _ | .xorReg _ _ | .addReg _ _
  | .subReg _ _ | .subnReg _ _ | .sys _ | .sneReg _ _ | .ldI _ | .jpV0 _ | .rnd _ _
  | .drw _ _ _ | .skp _ | .sknp _ | .ldVxDt _ | .ldVxK _ | .ldDtVx _ | .ldStVx _ | .addI _
  | .ldF _ | .ldB _ | .ldMemVx _ | .ldVxMem _ => i

/-- A text without the spaces after a comma, which "are optional". -/
def dropCommaSpaces (afterComma : Bool) (text : List Char) : List Char :=
  match text with
  | [] => []
  | c :: rest =>
    if afterComma && c == ' ' then dropCommaSpaces true rest
    else c :: dropCommaSpaces (c == ',') rest

/-- Does the word `w` disassemble to this text, with Y = 0 if it is a shift? -/
def spells (text : List Char) (w : Word) : Bool :=
  match decodeWord w with
  | .ok i => reassembled i == i && (disassemble i).map String.toList == some text
  | .error _ => false

/-- Assemble a text: the one word that spells it, or none if no word does. -/
def assemble (text : String) : Option Word :=
  ((List.range 65536).map (BitVec.ofNat 16)).find? (spells (dropCommaSpaces false text.toList))

end Sys2Proof.Machine
end

