-- ==== Sys2Proof/Machine/BlockOps.lean ====
section
/-! DEFINITION. The block's interface (spec/00_scope.md R10): the eight atomic operations the host
invokes between cycles, and a run of the host as a list of them. `Cycle` is the machine's step. -/

namespace Sys2Proof.Machine

/-- Copy bytes to consecutive addresses from `a`, in order (20_memory.md R70); none if one of the
addresses does not exist. -/
def writeBytes (a : Nat) (bytes : List Byte) (s : State) : Option State :=
  match bytes with
  | [] => some s
  | v :: rest =>
    match memWrite a v s with
    | some t => writeBytes (a + 1) rest t
    | none => none

/-- `LoadRom(bytes)` on Machine State (20_memory.md R70, R71): the bytes go to 0x200 up, or none
(RomTooLarge, nothing written) when `0x200 + L > 4096`. -/
def loadRom (bytes : List Byte) (s : State) : Option State :=
  if Config.programOrigin + bytes.length > Config.memorySize then none
  else writeBytes Config.programOrigin bytes s

/-- Memory right after `Reset(fontBase, fontBytes, seed)` (20_memory.md R69): the region below the
program origin is written with the font and zeros; the rest is not listed and reads zero. -/
@[irreducible] def fontMemory (base : Nat) (bytes : List Byte) : Memory :=
  (List.range Config.programOrigin).foldl (fun m a => m.write a (fontByte base bytes a)) []

/-- Machine State right after `Reset(fontBase, fontBytes, seed)` (70_reset_and_hazards.md R190).
With the machine's own parameters this is `State.reset`
(Obligations.HostResetReplacesTheState). -/
def resetWith (base : Nat) (bytes : List Byte) : State :=
  { State.reset with memory := fontMemory base bytes }

/-- One timer's part of a tick: "a timer at 0 stays at 0" (60_exceptions.md R175). -/
def tickTimer (t : Byte) : Byte := if t = 0x00#8 then t else t - 1

/-- `TimerTick()` (60_exceptions.md R175). -/
def timerTick (s : State) : State :=
  { s with delayTimer := tickTimer s.delayTimer, soundTimer := tickTimer s.soundTimer }

/-- `SetKey(k, b)` (60_exceptions.md R178). -/
def setKey (k : Fin 16) (b : Bool) (s : State) : State := { s with keypad := s.keypad.set k b }

/-- The host-facing word of a framebuffer cell (10_state.md R38). -/
def renderCell (on : Bool) : BitVec 32 := if on then Config.pixelOnWord else 0x00000000#32

/-- `ReadFramebuffer()` (60_exceptions.md R180): the 2048 cells, each as a 32-bit word. -/
def readFramebuffer (s : State) : Vector (BitVec 32) 2048 := s.fb.map renderCell

/-- `ReadSound()` (60_exceptions.md R177): `soundTimer != 0`. -/
def readSound (s : State) : Bool := s.soundTimer != 0x00#8

/-- `ReadFault()` (60_exceptions.md R166). -/
def readFault (s : State) : Option FaultRecord := s.fault

/-- How far the host has come since `Reset` (20_memory.md R73): `LoadRom` is called at most once,
and before the first `Cycle`. The MODEL's own, no field of Machine State (log entry 8). -/
inductive Phase where
  /-- After `Reset`: no ROM loaded and no cycle called. -/
  | fresh
  /-- A ROM has been loaded and no cycle called. -/
  | loaded
  /-- A cycle has been called. -/
  | running
  deriving DecidableEq, Repr

/-- The block as the host sees it. -/
structure Block where
  /-- Machine State. -/
  state : State
  /-- How far the host has come since `Reset`. -/
  phase : Phase
  deriving DecidableEq, Repr

/-- The host's operations (00_scope.md R10). `Reset` may bring another font each time; no field
holds its seed and no rule reads it (10_state.md R40, log entry 4). -/
inductive BlockOp where
  | reset (fontBase : Nat) (fontBytes : List Byte) (seed : Nat)
  | loadRom (bytes : List Byte)
  | cycle
  | timerTick
  | setKey (k : Fin 16) (b : Bool)
  | readFramebuffer
  | readSound
  | readFault
  deriving DecidableEq, Repr

/-- What an operation returns to the host. -/
inductive BlockResult where
  /-- Done. -/
  | ok
  /-- `Reset` with a font that does not fit below 0x200, against the constraint of 00_scope.md R8
  (log entry 2). -/
  | fontRefused
  /-- `LoadRom` of more than 0xE00 bytes (20_memory.md R71). -/
  | romTooLarge
  /-- `LoadRom` a second time or after a `Cycle` (20_memory.md R73). -/
  | loadRefused
  /-- A cycle that faulted, or a cycle of a halted engine (60_exceptions.md R165, R166). -/
  | faulted (record : FaultRecord)
  /-- A cycle of an instruction with no meaning in the model: no instruction is one, so no
  operation returns this. -/
  | noMeaning
  /-- `ReadFramebuffer`. -/
  | pixels (words : Vector (BitVec 32) 2048)
  /-- `ReadSound`. -/
  | sound (on : Bool)
  /-- `ReadFault`. -/
  | faultStatus (record : Option FaultRecord)
  deriving DecidableEq, Repr

/-- The block right after `Reset` with the machine's own parameters. -/
def Block.reset : Block := { state := State.reset, phase := .fresh }

/-- `Reset` at the interface: it replaces the whole state, whatever the block's is
(70_reset_and_hazards.md R190, R192), if the font fits (00_scope.md R8). -/
def Block.restart (base : Nat) (bytes : List Byte) (b : Block) : Block × BlockResult :=
  if base + bytes.length ≤ Config.programOrigin then
    ({ state := resetWith base bytes, phase := .fresh }, .ok)
  else (b, .fontRefused)

/-- `LoadRom` at the interface: accepted once, before the first cycle (20_memory.md R70 to R73).
Three points are the model's choice (DESIGN CHOICE, log entry 8), since R71 names RomTooLarge
without regard to the call's time and R73 names no result and no order of the two checks: a second
call, or one after a `Cycle`, answers `loadRefused` before the ROM's length is looked at, so an
oversized ROM answers `romTooLarge` only at a fresh block; a ROM that is too large is not loaded, so
another may follow; and a second call before the first `Cycle` is refused. -/
def Block.load (bytes : List Byte) (b : Block) : Block × BlockResult :=
  match b.phase with
  | .fresh =>
    match loadRom bytes b.state with
    | some t => ({ state := t, phase := .loaded }, .ok)
    | none => (b, .romTooLarge)
  | .loaded => (b, .loadRefused)
  | .running => (b, .loadRefused)

/-- `Cycle` at the interface: `ok`, or the fault record, which a halted engine returns again
(30_encoding.md R84, 60_exceptions.md R165, R166). -/
def Block.cycle (b : Block) : Block × BlockResult :=
  match step b.state with
  | .next t =>
    ({ state := t, phase := .running },
      match t.fault with
      | none => .ok
      | some r => .faulted r)
  | .fault (.halted r) => ({ b with phase := .running }, .faulted r)
  | .refused _ => ({ b with phase := .running }, .noMeaning)

/-- One operation of the host: the block after it and what it returns. -/
def Block.apply (op : BlockOp) (b : Block) : Block × BlockResult :=
  match op with
  | .reset base bytes _ => b.restart base bytes
  | .loadRom bytes => b.load bytes
  | .cycle => b.cycle
  | .timerTick => ({ b with state := Sys2Proof.Machine.timerTick b.state }, .ok)
  | .setKey k v => ({ b with state := Sys2Proof.Machine.setKey k v b.state }, .ok)
  | .readFramebuffer => (b, .pixels (Sys2Proof.Machine.readFramebuffer b.state))
  | .readSound => (b, .sound (Sys2Proof.Machine.readSound b.state))
  | .readFault => (b, .faultStatus (Sys2Proof.Machine.readFault b.state))

/-- The operation is a `Reset`. -/
def BlockOp.isReset (op : BlockOp) : Bool :=
  match op with
  | .reset _ _ _ => true
  | .loadRom _ | .cycle | .timerTick | .setKey _ _ | .readFramebuffer | .readSound
  | .readFault => false

/-- A run of the host: its operations in the order it calls them, each atomic (20_memory.md
R74). -/
def Block.run (ops : List BlockOp) (b : Block) : Block :=
  match ops with
  | [] => b
  | op :: rest => Block.run rest (b.apply op).1

end Sys2Proof.Machine
end

