-- ==== Sys2Proof/Machine/Run.lean ====
section
/-! DEFINITION. The end of a run (spec/70_reset_and_hazards.md R202, the spec's decision D24): a
program loaded after `Reset` runs to the first of a cycle that faults, a jump to itself, and a named
count of cycles. It is a definition for claims: the host may go on calling `Cycle` at any of the
three (`Block.run`). -/

namespace Sys2Proof.Machine

/-- Why a run ends (R202). -/
inductive RunEnd where
  /-- (a) A cycle faulted, with this record. -/
  | faulted (record : FaultRecord)
  /-- (b) The word at pc is a jump to itself. -/
  | selfJump
  /-- (c) The named count of cycles has run. -/
  | countReached
  deriving DecidableEq, Repr

/-- How a run ended. -/
structure RunResult where
  /-- Why it ended. -/
  cause : RunEnd
  /-- The number of cycles it took. -/
  cycles : Nat
  /-- The end state. -/
  state : State
  deriving DecidableEq, Repr

/-- Case (b) of R202: the word at pc is `1nnn` with NNN = pc. -/
def atSelfJump (s : State) : Bool :=
  match fetchWord s with
  | some w => fieldF w == 0x1#4 && (fieldNNN w).zeroExtend 16 == s.pc
  | none => false

/-- Case (a) or (b) of R202 at a state, or neither. -/
def endsHere (s : State) : Option RunEnd :=
  match s.fault with
  | some r => some (.faulted r)
  | none => if atSelfJump s then some .selfJump else none

/-- The run from `s` to the first of (a), (b) and (c) with `count` as the named count. Where more
than one holds of the same state the cause named is the first in that order: the model's choice, log
entry 15. A state where (a) does not hold has a step, so `none` is never answered. -/
def runToEnd (count : Nat) (s : State) : Option RunResult :=
  match endsHere s with
  | some e => some ⟨e, 0, s⟩
  | none =>
    match count with
    | 0 => some ⟨.countReached, 0, s⟩
    | n + 1 =>
      match step s with
      | .next t => (runToEnd n t).map (fun r => { r with cycles := r.cycles + 1 })
      | .fault _ => none
      | .refused _ => none

/-- "A run from `Reset` plus `LoadRom`" (R202), or none for a ROM that is refused (20_memory.md
R71). -/
def runProgram (rom : List Byte) (count : Nat) : Option RunResult :=
  match loadRom rom State.reset with
  | some s => runToEnd count s
  | none => none

end Sys2Proof.Machine
end

