-- ==== Sys2Proof/Safety.lean ====
section
/-! DEFINITION. What counts as a safe state and a safe run, in the terms the claims use. -/

namespace Sys2Proof.Machine

/-- No fault is recorded: the engine takes cycles (spec/60_exceptions.md R165). -/
abbrev State.Running (s : State) : Prop := s.fault = none

/-- What holds of every state that the host's operations reach from `Reset`: memory is in
canonical form, `pc` is at most 0x1002 (10_state.md R28), every live stack entry is at most 0x1000
(40_flow.md R111), `index` is still 0 (10_state.md R32) and every framebuffer cell is off
(60_exceptions.md R181). `sp <= 16` and the widths and sizes of 10_state.md R45 hold by the
fields' types. -/
structure State.Inv (s : State) : Prop where
  /-- Canonical memory. -/
  memory_wf : s.memory.wf
  /-- The largest pc a cycle can leave. -/
  pc_le : s.pc.toNat ≤ 0x1002
  /-- Every entry that CALL stored and RET has not taken back. -/
  stack_le : ∀ k : Fin 16, k.val < s.sp.val → (s.stack[k]).toNat ≤ 0x1000
  /-- Nothing in scope writes `index`. -/
  index_zero : s.index = 0
  /-- Only CLS writes the framebuffer, and it writes "off". -/
  fb_off : ∀ c : Fin 2048, s.fb[c] = false

/-- The step leaves the engine running: it is a next state with no fault recorded. -/
def StepsSafely (s : State) : Prop := ∃ t, step s = .next t ∧ t.Running

/-- `k` cycles run, none of them faulting. -/
def RunsSafely (k : Nat) (s : State) : Prop :=
  match k with
  | 0 => s.Running
  | n + 1 => ∃ t, step s = .next t ∧ t.Running ∧ RunsSafely n t

/-- End of a run, case (a) of 70_reset_and_hazards.md R202: the state after a cycle that faults. -/
def EndsFaulted (s : State) : Prop := ∃ r, s.fault = some r

/-- End of a run, case (b) of R202: the word at pc is `1nnn` with NNN = pc, a jump to itself. -/
def EndsAtSelfJump (s : State) : Prop :=
  s.Running ∧ ∃ nnn : Addr, fetchWord s = some (encode (.jp nnn)) ∧ s.pc = nnn.zeroExtend 16

/-- The state after `k` cycles, or none if the engine is halted before. -/
def stepN (k : Nat) (s : State) : Option State :=
  match k with
  | 0 => some s
  | n + 1 =>
    match step s with
    | .next t => stepN n t
    | .fault _ => none
    | .refused _ => none

/-- The run from `s` ends after `k` cycles, at the first state of case (a) or (b) of R202, for a
claim that names no count; with a count, case (c), it is `runToEnd` (Machine/Run.lean). -/
def EndsAfter (k : Nat) (s : State) : Prop :=
  match k with
  | 0 => EndsFaulted s ∨ EndsAtSelfJump s
  | n + 1 => ¬ EndsFaulted s ∧ ¬ EndsAtSelfJump s ∧ ∃ t, step s = .next t ∧ EndsAfter n t

/-- The block is reached from `Reset` by some list of host operations (00_scope.md R10). -/
def Block.Reachable (b : Block) : Prop := ∃ ops, b = Block.run ops Block.reset

end Sys2Proof.Machine
end

