-- ==== Sys2Proof/Certificates/Slice0/Obligations.lean ====
section
/-! DEFINITION. The statements for the provers, and the tables of the spec they speak of. Where a
statement rests on a decision that the spec marks as its own (spec/92_eei_decisions.md), its
docstring names the decision. -/

open Sys2Proof Sys2Proof.Machine

namespace Sys2Proof.Spec

/-- 10_state.md R22, the column "reads": the general registers an instruction reads. -/
def readsReg (i : Instr) (r : Reg) : Prop :=
  match i with
  | .seImm x _ | .sneImm x _ | .addImm x _ | .shr x _ | .shl x _ => r = x
  | .ldReg _ y => r = y
  | .seReg x y | .orReg x y | .andReg x y | .xorReg x y | .addReg x y | .subReg x y
  | .subnReg x y => r = x ∨ r = y
  | .cls | .ret | .jp _ | .call _ | .ldImm _ _ | .sys _ | .sneReg _ _ | .ldI _ | .jpV0 _
  | .rnd _ _ | .drw _ _ _ | .skp _ | .sknp _ | .ldVxDt _ | .ldVxK _ | .ldDtVx _ | .ldStVx _
  | .addI _ | .ldF _ | .ldB _ | .ldMemVx _ | .ldVxMem _ => False

/-- 10_state.md R22, the column "writes": the general registers an instruction writes. -/
def writesReg (i : Instr) (r : Reg) : Prop :=
  match i with
  | .ldImm x _ | .addImm x _ | .ldReg x _ | .orReg x _ | .andReg x _ | .xorReg x _ => r = x
  | .addReg x _ | .subReg x _ | .subnReg x _ | .shr x _ | .shl x _ => r = 15 ∨ r = x
  | .cls | .ret | .jp _ | .call _ | .seImm _ _ | .sneImm _ _ | .seReg _ _ | .sys _
  | .sneReg _ _ | .ldI _ | .jpV0 _ | .rnd _ _ | .drw _ _ _ | .skp _ | .sknp _ | .ldVxDt _
  | .ldVxK _ | .ldDtVx _ | .ldStVx _ | .addI _ | .ldF _ | .ldB _ | .ldMemVx _
  | .ldVxMem _ => False

/-- The condition of a skip (41_skip.md R121 to R123), or none for another instruction. -/
def skipCondition (i : Instr) (s : State) : Option Bool :=
  match i with
  | .seImm x kk => some (s.reg x == kk)
  | .sneImm x kk => some (s.reg x != kk)
  | .seReg x y => some (s.reg x == s.reg y)
  | .cls | .ret | .jp _ | .call _ | .ldImm _ _ | .addImm _ _ | .ldReg _ _ | .orReg _ _
  | .andReg _ _ | .xorReg _ _ | .addReg _ _ | .subReg _ _ | .shr _ _ | .subnReg _ _
  | .shl _ _ | .sys _ | .sneReg _ _ | .ldI _ | .jpV0 _ | .rnd _ _ | .drw _ _ _ | .skp _
  | .sknp _ | .ldVxDt _ | .ldVxK _ | .ldDtVx _ | .ldStVx _ | .addI _ | .ldF _ | .ldB _
  | .ldMemVx _ | .ldVxMem _ => none

/-- 10_state.md R26: the pc after a completed cycle of `i` that started in `s`. -/
def pcAfter (i : Instr) (s : State) : Word :=
  match i with
  | .jp nnn | .call nnn => nnn.zeroExtend 16
  | .ret => if h : 0 < s.sp.val then s.stack[s.sp.val - 1] else s.pc
  | .seImm _ _ | .sneImm _ _ | .seReg _ _ =>
    if skipCondition i s = some true then s.pc + 4 else s.pc + 2
  | .cls | .ldImm _ _ | .addImm _ _ | .ldReg _ _ | .orReg _ _ | .andReg _ _ | .xorReg _ _
  | .addReg _ _ | .subReg _ _ | .shr _ _ | .subnReg _ _ | .shl _ _ | .sys _ | .sneReg _ _
  | .ldI _ | .jpV0 _ | .rnd _ _ | .drw _ _ _ | .skp _ | .sknp _ | .ldVxDt _ | .ldVxK _
  | .ldDtVx _ | .ldStVx _ | .addI _ | .ldF _ | .ldB _ | .ldMemVx _ | .ldVxMem _ => s.pc + 2

/-- The fault that a cycle from `s` raises, checked in the order of 60_exceptions.md R167. -/
def expectedFault (s : State) : Option FaultRecord :=
  match fetchWord s with
  | none => some ⟨.fetchOutOfRange, s.pc, none⟩
  | some w =>
    match decodeWord w with
    | .error _ => some ⟨.unrecognizedOpcode, s.pc, some w⟩
    | .ok i =>
      if i.implemented = false then
        some ⟨.unimplementedOpcode, s.pc, some w⟩
      else
        match i with
        | .call _ =>
          if s.sp.val = 16 then
            some ⟨.stackOverflow, s.pc, some w⟩
          else none
        | .ret =>
          if s.sp.val = 0 then
            some ⟨.stackUnderflow, s.pc, some w⟩
          else none
        | _ => none

/-- 30_encoding.md R91: the five classes of unrecognized words. -/
def unrecognized (w : Word) : Prop :=
  (fieldF w = 0x5#4 ∧ fieldN w ≠ 0#4) ∨
  (fieldF w = 0x8#4 ∧ fieldN w ∈ [0x8#4, 0x9#4, 0xA#4, 0xB#4, 0xC#4, 0xD#4, 0xF#4]) ∨
  (fieldF w = 0x9#4 ∧ fieldN w ≠ 0#4) ∨
  (fieldF w = 0xE#4 ∧ fieldKK w ∉ [0x9E#8, 0xA1#8]) ∨
  (fieldF w = 0xF#4 ∧ fieldKK w ∉
    [0x07#8, 0x0A#8, 0x15#8, 0x18#8, 0x1E#8, 0x29#8, 0x33#8, 0x55#8, 0x65#8])

/-- One row of the pattern table of 30_encoding.md R90. -/
structure PatternRow where
  /-- The bits the pattern fixes. -/
  mask : Word
  /-- Their values. -/
  bits : Word
  /-- The instruction, with its fields taken from the word. -/
  instr : Word → Instr

/-- The 18 rows of 30_encoding.md R90. -/
def patternTable : List PatternRow :=
  [⟨0xFFFF#16, 0x00E0#16, fun _ => .cls⟩,
   ⟨0xFFFF#16, 0x00EE#16, fun _ => .ret⟩,
   ⟨0xF000#16, 0x1000#16, fun w => .jp (fieldNNN w)⟩,
   ⟨0xF000#16, 0x2000#16, fun w => .call (fieldNNN w)⟩,
   ⟨0xF000#16, 0x3000#16, fun w => .seImm (fieldX w) (fieldKK w)⟩,
   ⟨0xF000#16, 0x4000#16, fun w => .sneImm (fieldX w) (fieldKK w)⟩,
   ⟨0xF00F#16, 0x5000#16, fun w => .seReg (fieldX w) (fieldY w)⟩,
   ⟨0xF000#16, 0x6000#16, fun w => .ldImm (fieldX w) (fieldKK w)⟩,
   ⟨0xF000#16, 0x7000#16, fun w => .addImm (fieldX w) (fieldKK w)⟩] ++
  [⟨0xF00F#16, 0x8000#16, fun w => .ldReg (fieldX w) (fieldY w)⟩,
   ⟨0xF00F#16, 0x8001#16, fun w => .orReg (fieldX w) (fieldY w)⟩,
   ⟨0xF00F#16, 0x8002#16, fun w => .andReg (fieldX w) (fieldY w)⟩,
   ⟨0xF00F#16, 0x8003#16, fun w => .xorReg (fieldX w) (fieldY w)⟩,
   ⟨0xF00F#16, 0x8004#16, fun w => .addReg (fieldX w) (fieldY w)⟩,
   ⟨0xF00F#16, 0x8005#16, fun w => .subReg (fieldX w) (fieldY w)⟩,
   ⟨0xF00F#16, 0x8006#16, fun w => .shr (fieldX w) (fieldY w)⟩,
   ⟨0xF00F#16, 0x8007#16, fun w => .subnReg (fieldX w) (fieldY w)⟩,
   ⟨0xF00F#16, 0x800E#16, fun w => .shl (fieldX w) (fieldY w)⟩]

/-- A hexadecimal digit, 0 to 15. -/
def digit (n : Nat) : String :=
  (["0", "1", "2", "3", "4", "5", "6", "7"] ++ ["8", "9", "A", "B", "C", "D", "E", "F"]).getD n ""

/-- `0xKK`. -/
def hex2 (kk : Byte) : String := "0x" ++ digit (kk.toNat / 16) ++ digit (kk.toNat % 16)

/-- `0xNNN`. -/
def hex3 (nnn : Addr) : String :=
  "0x" ++ digit (nnn.toNat / 256) ++ digit (nnn.toNat / 16 % 16) ++ digit (nnn.toNat % 16)

/-- `V0` to `V15`, in decimal. -/
def regName (r : Reg) : String :=
  (["V0", "V1", "V2", "V3", "V4", "V5", "V6", "V7"] ++
    ["V8", "V9", "V10", "V11", "V12", "V13", "V14", "V15"]).getD r.val ""

/-- The table of 30_encoding.md R95, the column "syntax"; it has no row for an instruction outside
the subset. -/
def syntaxText (i : Instr) : Option String :=
  match i with
  | .cls => some "CLS"
  | .ret => some "RET"
  | .jp nnn => some ("JP " ++ hex3 nnn)
  | .call nnn => some ("CALL " ++ hex3 nnn)
  | .seImm x kk => some ("SE " ++ regName x ++ "," ++ hex2 kk)
  | .sneImm x kk => some ("SNE " ++ regName x ++ "," ++ hex2 kk)
  | .seReg x y => some ("SE " ++ regName x ++ "," ++ regName y)
  | .ldImm x kk => some ("LD " ++ regName x ++ "," ++ hex2 kk)
  | .addImm x kk => some ("ADD " ++ regName x ++ "," ++ hex2 kk)
  | .ldReg x y => some ("LD " ++ regName x ++ "," ++ regName y)
  | .orReg x y => some ("OR " ++ regName x ++ "," ++ regName y)
  | .andReg x y => some ("AND " ++ regName x ++ "," ++ regName y)
  | .xorReg x y => some ("XOR " ++ regName x ++ "," ++ regName y)
  | .addReg x y => some ("ADD " ++ regName x ++ "," ++ regName y)
  | .subReg x y => some ("SUB " ++ regName x ++ "," ++ regName y)
  | .shr x _ => some ("SHR " ++ regName x)
  | .subnReg x y => some ("SUBN " ++ regName x ++ "," ++ regName y)
  | .shl x _ => some ("SHL " ++ regName x)
  | .sys _ | .sneReg _ _ | .ldI _ | .jpV0 _ | .rnd _ _ | .drw _ _ _ | .skp _ | .sknp _
  | .ldVxDt _ | .ldVxK _ | .ldDtVx _ | .ldStVx _ | .addI _ | .ldF _ | .ldB _ | .ldMemVx _
  | .ldVxMem _ => none

/-- Two states that differ in the general registers at most. -/
def SameButRegisters (s t : State) : Prop := t = { s with V := t.V }

/-- Everything the frame of a register instruction keeps, memory through the read of one byte. -/
def KeepsAllButRegisters (s t : State) : Prop :=
  (∀ a, memRead a t = memRead a s) ∧ t.index = s.index ∧ t.pc = s.pc ∧ t.stack = s.stack ∧
  t.sp = s.sp ∧ t.delayTimer = s.delayTimer ∧ t.soundTimer = s.soundTimer ∧
  t.keypad = s.keypad ∧ t.fb = s.fb ∧ t.opcode = s.opcode ∧ t.fault = s.fault

/-- `bool(c)` of 00_scope.md R13: the byte 1 if `c` holds, else 0. -/
def bit (c : Prop) [Decidable c] : Byte := if c then 1 else 0

end Sys2Proof.Spec

open Sys2Proof.Spec

/-! ### Registers, reset and boot -/

/-- 10_state.md R21: "every register, V0 included, reads as the last value written to it", no
register aliases another, and each resets to 0. -/
def Obligations.RegistersReadAsLastWritten : Prop :=
  ∀ (s : State) (r q : Reg) (v : Byte),
    (s.setReg r v).reg r = v ∧
    (q ≠ r → (s.setReg r v).reg q = s.reg q) ∧
    SameButRegisters s (s.setReg r v) ∧
    State.reset.reg r = 0x00#8

/-- 70_reset_and_hazards.md R190, 10_state.md R44: every field after `Reset`. The keypad and
framebuffer values are the spec's decision D25, `fault` is D9, and the font's place and bytes are
the open parameters of D12. -/
def Obligations.ResetLeavesEveryFieldAsStated : Prop :=
  (∀ r, State.reset.reg r = 0x00#8) ∧
  (∀ j : Fin 16, State.reset.stack[j] = 0x0000#16) ∧
  (∀ k : Fin 16, State.reset.keypad[k] = false) ∧
  (∀ c : Fin 2048, State.reset.fb[c] = false) ∧
  State.reset.index = 0x0000#16 ∧ State.reset.sp = 0 ∧
  State.reset.delayTimer = 0x00#8 ∧ State.reset.soundTimer = 0x00#8 ∧
  State.reset.opcode = 0x0000#16 ∧ State.reset.fault = none ∧ State.reset.pc = 0x0200#16 ∧
  Config.fontBase.val + Config.fontBytes.length ≤ 0x200 ∧
  (∀ a, a ≤ 0xFFF → memRead a State.reset = some (
    if Config.fontBase.val ≤ a ∧ a < Config.fontBase.val + Config.fontBytes.length then
      Config.fontBytes.getD (a - Config.fontBase.val) 0x00#8
    else 0x00#8)) ∧
  (∀ a, 0xFFF < a → memRead a State.reset = none)

/-- 70_reset_and_hazards.md R190, R192: `Reset` with any font that fits below 0x200, and any seed,
replaces the whole state from any block, a halted one included, and clears the fault (the spec's
decision D9): memory holds the font at its base and 0 elsewhere, and every other field is as in
`State.reset`, which is the state after a `Reset` with the machine's own parameters. -/
def Obligations.HostResetReplacesTheState : Prop :=
  (∀ (b : Block) (base : Nat) (bytes : List Byte) (seed : Nat), base + bytes.length ≤ 0x200 →
    ∃ t, b.apply (.reset base bytes seed) = ({ state := t, phase := .fresh }, .ok) ∧
      t = { State.reset with memory := t.memory } ∧ t.fault = none ∧ t.memory.wf ∧
      (∀ a, a ≤ 0xFFF → memRead a t = some (
        if base ≤ a ∧ a < base + bytes.length then bytes.getD (a - base) 0x00#8
        else 0x00#8))) ∧
  (∀ (b : Block) (seed : Nat),
    b.apply (.reset Config.fontBase.val Config.fontBytes seed) =
      ({ state := State.reset, phase := .fresh }, .ok))

/-- 20_memory.md R72 [derived there, decision D15]: with no ROM loaded the first cycle after
`Reset` fetches 0x0000 and raises UnimplementedOpcode. -/
def Obligations.FirstCycleOfEmptyMachineFaults : Prop :=
  step State.reset = .next { State.reset with
    fault := some ⟨.unimplementedOpcode, 0x0200#16, some 0x0000#16⟩ }

/-! ### Memory and the fetch -/

/-- 20_memory.md R64: "The byte at the lower address is the high byte of the instruction word". -/
def Obligations.FetchIsBigEndian : Prop :=
  ∀ (s : State) (hi lo : Byte), s.pc.toNat ≤ 0xFFE →
    memRead s.pc.toNat s = some hi → memRead (s.pc.toNat + 1) s = some lo →
    fetchWord s = some ((hi.zeroExtend 16 <<< 8) ||| lo.zeroExtend 16)

/-- 30_encoding.md R85 (the spec's decisions D7 and D8): a fetch succeeds exactly when
`pc <= 0xFFE`, odd or even, and a cycle beyond faults with no word and changes nothing else. -/
def Obligations.FetchBeyondMemoryFaults : Prop :=
  ∀ s : State, s.Running →
    (s.pc.toNat ≤ 0xFFE → ∃ w, fetchWord s = some w) ∧
    (0xFFE < s.pc.toNat → step s = .next { s with
      fault := some ⟨.fetchOutOfRange, s.pc, none⟩ })

/-- 20_memory.md R61, R62: a stored byte is read back, every other byte and field stays, the
canonical form stays, nothing is read or stored above 0xFFF, no instruction writes memory, and no
host operation but `LoadRom` and `Reset` changes it. -/
def Obligations.MemoryReadsLastByteWritten : Prop :=
  (∀ (s : State) (a : Nat) (v : Byte), s.memory.wf → a ≤ 0xFFF →
    ∃ t, memWrite a v s = some t ∧ memRead a t = some v ∧
      (∀ b, b ≠ a → memRead b t = memRead b s) ∧ t.memory.wf ∧
      t = { s with memory := t.memory }) ∧
  (∀ (s : State) (a : Nat) (v : Byte), 0xFFF < a →
    memRead a s = none ∧ memWrite a v s = none) ∧
  (∀ (i : Instr) (s t : State), exec i s = .next t → t.memory = s.memory) ∧
  (∀ (op : BlockOp) (b : Block), (∀ bytes, op ≠ .loadRom bytes) → op.isReset = false →
    (b.apply op).1.state.memory = b.state.memory)

/-- 20_memory.md R70: at a fresh block the bytes go "verbatim into memory starting at offset
0x200" and the result is ok; every other byte keeps its value, and no other field changes. That a
longer sequence is not copied is the spec's decision D14 (R71), and that the block's phase goes from
`fresh` to `loaded` is the model's choice (log entry 8). -/
def Obligations.LoadRomCopiesVerbatim : Prop :=
  ∀ (s : State) (bytes : List Byte), s.memory.wf →
    (bytes.length ≤ 0xE00 → ∃ t, loadRom bytes s = some t ∧
      Block.apply (.loadRom bytes) ⟨s, .fresh⟩ = (⟨t, .loaded⟩, .ok) ∧
      t = { s with memory := t.memory } ∧ t.memory.wf ∧
      (∀ i, i < bytes.length → memRead (0x200 + i) t = some (bytes.getD i 0x00#8)) ∧
      (∀ a, a < 0x200 ∨ 0x200 + bytes.length ≤ a → memRead a t = memRead a s)) ∧
    (0xE00 < bytes.length → loadRom bytes s = none)

/-- 20_memory.md R71 (the spec's decision D14): at a fresh block a ROM of more than 0xE00 bytes is
refused, nothing is written and no fault is set. That the block's phase stays `fresh`, so that
another `LoadRom` may follow, is the model's choice, not R71's or D14's (log entry 8, marked unsafe
there for claims that such a load succeeds). -/
def Obligations.OversizedRomIsRefused : Prop :=
  ∀ (b : Block) (bytes : List Byte), 0xE00 < bytes.length → b.phase = .fresh →
    loadRom bytes b.state = none ∧ b.apply (.loadRom bytes) = (b, .romTooLarge)

/-- 20_memory.md R73 (the spec's decision D16): after the first `Cycle`, and until the next
`Reset`, whatever else the host does, `LoadRom` is refused and changes nothing. That an oversized ROM
answers `loadRefused` there too, and not RomTooLarge, is the model's choice (log entry 8). -/
def Obligations.LoadRomIsRefusedAfterFirstCycle : Prop :=
  ∀ (b : Block) (ops : List BlockOp) (bytes : List Byte), (∀ op ∈ ops, op.isReset = false) →
    (Block.run ops (b.apply .cycle).1).apply (.loadRom bytes) =
      (Block.run ops (b.apply .cycle).1, .loadRefused)

/-! ### Encoding -/

/-- 30_encoding.md R89, R90, R92 (patterns: the spec's decision D1): for every well-formed
instruction, with every operand at every value, decoding its word gives it back. -/
def Obligations.DecodeOfEncodeIsTheInstruction : Prop :=
  ∀ i : Instr, i.wf = true → decodeWord (encode i) = .ok i ∧
    ∀ rest, decodeBytes (encodeBytes i ++ rest) = .ok (i, rest)

/-- The other direction: a word that decodes to an instruction is that instruction's word, so each
word has one meaning and no bit of it is lost (the ignored Y of SHR and SHL is kept in the term:
log entry 6). -/
def Obligations.EncodeOfDecodeIsTheWord : Prop :=
  ∀ (w : Word) (i : Instr), decodeWord w = .ok i → encode i = w ∧ i.wf = true

/-- 30_encoding.md R90 (the spec's decisions D1, D2): the two-level dispatch and the pattern table
agree on every word, and no word matches two rows. -/
def Obligations.DispatchAgreesWithPatternTable : Prop :=
  (∀ (w : Word) (i : Instr), (decodeWord w = .ok i ∧ i.implemented = true) ↔
    ∃ r ∈ patternTable, w &&& r.mask = r.bits ∧ i = r.instr w) ∧
  patternTable.Pairwise (fun r q => ∀ w : Word, ¬(w &&& r.mask = r.bits ∧ w &&& q.mask = q.bits))

/-- 30_encoding.md R91 (the spec's decision D3): the words that decode to no instruction are
exactly the five classes listed there. -/
def Obligations.UnrecognizedWordsAreTheListedOnes : Prop :=
  ∀ w : Word, (decodeWord w = .error (.unrecognized w) ↔ unrecognized w) ∧
    (¬ unrecognized w → ∃ i, decodeWord w = .ok i)

/-- 30_encoding.md R87: the six fields, each by its mask and shift. -/
def Obligations.FieldsAreMaskedAndShifted : Prop :=
  ∀ w : Word,
    (fieldF w).zeroExtend 16 = (w &&& 0xF000#16) >>> 12 ∧
    (regBits (fieldX w)).zeroExtend 16 = (w &&& 0x0F00#16) >>> 8 ∧
    (regBits (fieldY w)).zeroExtend 16 = (w &&& 0x00F0#16) >>> 4 ∧
    (fieldN w).zeroExtend 16 = w &&& 0x000F#16 ∧
    (fieldKK w).zeroExtend 16 = w &&& 0x00FF#16 ∧
    (fieldNNN w).zeroExtend 16 = w &&& 0x0FFF#16

/-- Words of every family decode to what they stand for: 42_immediate.md R130 and R131 (words shown
by the source) and the examples of 40_flow.md, 41_skip.md, 43_register_alu.md and
95_test_vectors.md 2.1 (patterns: the spec's decision D1; that 0x01E0 is no CLS is D2 and that it
names SYS is D4, as for the other words outside the subset; that 0x5121 is no instruction is D2 and
D3). -/
def Obligations.WordsDecodeAsWritten : Prop :=
  decodeWord 0b0110_0000_0000_1010#16 = .ok (.ldImm 0 0x0A#8) ∧
  decodeWord 0b0111_0000_0000_0101#16 = .ok (.addImm 0 0x05#8) ∧
  decodeWord 0b0000_0000_1110_0000#16 = .ok .cls ∧
  decodeWord 0b0000_0000_1110_1110#16 = .ok .ret ∧
  decodeWord 0b0001_1010_1011_1100#16 = .ok (.jp 0xABC#12) ∧
  decodeWord 0b0010_0011_0000_0000#16 = .ok (.call 0x300#12) ∧
  decodeWord 0b0011_0011_0100_0010#16 = .ok (.seImm 3 0x42#8) ∧
  decodeWord 0b0100_0011_0100_0010#16 = .ok (.sneImm 3 0x42#8) ∧
  decodeWord 0b0101_0001_0010_0000#16 = .ok (.seReg 1 2) ∧
  decodeWord 0b1000_1111_0000_0100#16 = .ok (.addReg 15 0) ∧
  decodeWord 0b1000_0001_0000_1110#16 = .ok (.shl 1 0) ∧
  decodeWord 0b0000_0001_1110_0000#16 = .ok (.sys 0x1E0#12) ∧
  decodeWord 0b1001_0001_0010_0000#16 = .ok (.sneReg 1 2) ∧
  decodeWord 0b1010_0001_0010_0011#16 = .ok (.ldI 0x123#12) ∧
  decodeWord 0b1011_0001_0010_0011#16 = .ok (.jpV0 0x123#12) ∧
  decodeWord 0b1100_0001_0010_0011#16 = .ok (.rnd 1 0x23#8) ∧
  decodeWord 0b1101_0001_0010_0011#16 = .ok (.drw 1 2 0x3#4) ∧
  decodeWord 0b1110_0001_1001_1110#16 = .ok (.skp 1) ∧
  decodeWord 0b1110_0001_1010_0001#16 = .ok (.sknp 1) ∧
  decodeWord 0b1111_0001_0110_0101#16 = .ok (.ldVxMem 1) ∧
  decodeWord 0b0101_0001_0010_0001#16 = .error (.unrecognized 0x5121#16)

/-- 30_encoding.md R95 (the spec's decision D23): the text of every instruction is the one of R95's
table, and an instruction outside the subset has none; the text of an instruction spells its own
word and no other, with Y = 0 for SHR and SHL, which are printed without Y; and the text assembles
to that word (the search of `assemble` and the two and three digits: log entry 14). -/
def Obligations.TextSpellsTheWord : Prop :=
  (∀ i : Instr, disassemble i = syntaxText i) ∧
  (∀ (i : Instr) (text : String), disassemble i = some text →
    (∀ w : Word, spells text.toList w = true ↔ w = encode (reassembled i)) ∧
    assemble text = some (encode (reassembled i))) ∧
  (∀ x y : Reg, reassembled (.shr x y) = .shr x 0 ∧ reassembled (.shl x y) = .shl x 0) ∧
  (∀ i : Instr, (∀ x y, i ≠ .shr x y ∧ i ≠ .shl x y) → reassembled i = i)

/-! ### The cycle and its faults -/

/-- 30_encoding.md R84, R86, R99: when the word at pc decodes to `i`, a step runs `i` in the state
with pc advanced by 2 (which never wraps) and `opcode` written; the state of a completed handler
stands, and a raised fault is recorded in the state before the cycle (the spec's decision D9). -/
def Obligations.StepRunsTheDecodedInstruction : Prop :=
  ∀ (s : State) (w : Word) (i : Instr),
    s.Running → fetchWord s = some w → decodeWord w = .ok i →
    (s.pc + 2).toNat = s.pc.toNat + 2 ∧ s.pc.toNat + 2 ≤ 0x1000 ∧
    ∃ t, exec i { s with pc := s.pc + 2, opcode := w } = .next t ∧
      (t.fault = none → step s = .next t) ∧
      (∀ r, t.fault = some r → step s = .next { s with fault := some r })

/-- 60_exceptions.md R165 (the spec's decision D9): a halted engine has no step and answers its
record, and nothing but a recorded fault stops the engine: every other state has a next state. -/
def Obligations.OnlyARecordedFaultStopsTheEngine : Prop :=
  ∀ s : State,
    (∀ r, s.fault = some r → step s = .fault (.halted r)) ∧
    (s.fault = none → ∃ t, step s = .next t)

/-- 60_exceptions.md R163, R164 (the spec's decision D9): "A fault is precise, and a faulting cycle
changes only `fault`". The record holds the pc at the start of the cycle and the fetched word, or
no word exactly when the fetch was out of range. -/
def Obligations.FaultsArePrecise : Prop :=
  ∀ (s t : State) (r : FaultRecord), s.Running → step s = .next t → t.fault = some r →
    t = { s with fault := some r } ∧ r.faultPc = s.pc ∧ r.word = fetchWord s ∧
    (r.cause = .fetchOutOfRange ↔ r.word = none)

/-- 60_exceptions.md R161, R162, R167 (the spec's decisions D3 to D7 and D32): a cycle raises a
fault exactly in the cases listed, with the cause and record given, in the order fetch range,
decode, the instruction's own check; and the causes have the codes 1 to 5. -/
def Obligations.EveryCycleRaisesExactlyTheExpectedFault : Prop :=
  (∀ s t : State, s.Running → step s = .next t → t.fault = expectedFault s) ∧
  FaultCause.fetchOutOfRange.code = 1 ∧ FaultCause.unrecognizedOpcode.code = 2 ∧
  FaultCause.unimplementedOpcode.code = 3 ∧ FaultCause.stackOverflow.code = 4 ∧
  FaultCause.stackUnderflow.code = 5

/-! ### Screen clear and control transfer -/

/-- 40_flow.md R110: CLS completes in every state, turns every cell off and changes nothing
else; pc keeps its already-advanced value. -/
def Obligations.ClsTurnsEveryCellOff : Prop :=
  ∀ s : State, ∃ t, exec .cls s = .next t ∧ (∀ c : Fin 2048, t.fb[c] = false) ∧
    t = { s with fb := t.fb }

/-- 40_flow.md R111: RET completes when the stack is not empty, pc gets the top entry and sp
counts down; with an empty stack it raises StackUnderflow and changes nothing else (the spec's
decision D6; the record's fields: log entry 11). -/
def Obligations.RetPopsTheReturnAddress : Prop :=
  ∀ s : State,
    (∀ k : Fin 16, s.sp.val = k.val + 1 →
      exec .ret s = .next { s with sp := k.castSucc, pc := s.stack[k] }) ∧
    (s.sp.val = 0 → exec .ret s = .next { s with
      fault := some ⟨.stackUnderflow, s.pc - 2, some 0x00EE#16⟩ })

/-- 40_flow.md R112: JP completes in every state and loads the zero-extended address into pc. -/
def Obligations.JpLoadsTheAddress : Prop :=
  ∀ (s : State) (nnn : Addr),
    exec (.jp nnn) s = .next { s with pc := BitVec.ofNat 16 nnn.toNat }

/-- 40_flow.md R113: CALL completes when the stack is not full, stores the already-advanced pc at
the next free slot, counts sp up and loads the address; with a full stack it raises StackOverflow
and changes nothing else (the spec's decision D5; the record's fields: log entry 11). -/
def Obligations.CallPushesTheReturnAddress : Prop :=
  ∀ (s : State) (nnn : Addr),
    (∀ k : Fin 16, s.sp.val = k.val →
      exec (.call nnn) s = .next { s with
        stack := s.stack.set k s.pc, sp := k.succ, pc := BitVec.ofNat 16 nnn.toNat }) ∧
    (s.sp.val = 16 → exec (.call nnn) s = .next { s with
      fault := some ⟨.stackOverflow, s.pc - 2, some (encode (.call nnn))⟩ })

/-- 40_flow.md R114 [derived there from R111 and R113]: a CALL at p with sp below 16, then a RET in
any state with the same sp and the same entry on top of the stack, leaves pc = p + 2 and sp as
before the CALL. Both are whole cycles. -/
def Obligations.CallThenRetReturns : Prop :=
  ∀ (s t u : State) (nnn : Addr), s.Running → s.sp.val < 16 →
    fetchWord s = some (encode (.call nnn)) → step s = .next t →
    u.Running → u.sp = t.sp →
    (∀ k : Fin 16, k.val = s.sp.val → u.stack[k] = t.stack[k]) →
    fetchWord u = some (encode .ret) →
    ∃ v, step u = .next v ∧ v.Running ∧ v.pc = s.pc + 2 ∧ v.sp = s.sp

/-- 70_reset_and_hazards.md R202 (b) (the spec's decision D24) and 40_flow.md R112: at a jump to
itself every later cycle leaves the state unchanged, but that the first writes the word into
`opcode`. -/
def Obligations.SelfJumpLoopsForever : Prop :=
  ∀ s : State, EndsAtSelfJump s →
    ∃ w t, fetchWord s = some w ∧ t = { s with opcode := w } ∧ step s = .next t ∧
      step t = .next t ∧ EndsAtSelfJump t

/-! ### Skips -/

/-- 41_skip.md R121 to R123: the three skips complete in every state, add 2 to the already-advanced
pc when their condition holds, and change nothing else. -/
def Obligations.SkipsCompareAndSkip : Prop :=
  ∀ (s : State) (x y : Reg) (kk : Byte),
    exec (.seImm x kk) s = .next { s with pc := if s.reg x = kk then s.pc + 2 else s.pc } ∧
    exec (.sneImm x kk) s = .next { s with pc := if s.reg x = kk then s.pc else s.pc + 2 } ∧
    exec (.seReg x y) s = .next { s with pc := if s.reg x = s.reg y then s.pc + 2 else s.pc }

/-- 41_skip.md R120: the cycle of a skip leaves pc at p + 4 or p + 2, without wrapping and never
above 0x1002; it does not fault, and it does not depend on the skipped word: under any other
memory with the same word at p it does the same. -/
def Obligations.SkipAdvancesByFourOrTwo : Prop :=
  ∀ (s : State) (m : Memory) (w : Word) (i : Instr) (c : Bool), s.Running →
    fetchWord s = some w → fetchWord { s with memory := m } = some w →
    decodeWord w = .ok i → skipCondition i s = some c →
    ∃ t, step s = .next t ∧ t = { s with pc := t.pc, opcode := w } ∧
      t.pc.toNat = s.pc.toNat + (if c then 4 else 2) ∧ t.pc.toNat ≤ 0x1002 ∧
      step { s with memory := m } = .next { t with memory := m }

/-! ### Register operations -/

/-- 42_immediate.md R130: LD Vx,byte, its encoding 6xkk (match 0x6000, mask 0xF000) and its effect:
`x[X] <- KK` in every state, and nothing else; its whole cycle never faults and moves pc by 2. -/
def Obligations.LoadImmediateSetsTheRegister : Prop :=
  ∀ (s : State) (x : Reg) (kk : Byte),
    decodeWord (0x6#4 ++ (BitVec.ofFin x ++ kk : BitVec 12)) = .ok (.ldImm x kk) ∧
    matchBits (.ldImm x kk) = 0x6000#16 ∧ maskBits (.ldImm x kk) = 0xF000#16 ∧
    decodeWord 0x600A#16 = .ok (.ldImm 0 0x0A#8) ∧
    (∃ t, exec (.ldImm x kk) s = .next t ∧ SameButRegisters s t ∧
      ∀ r, t.reg r = if r = x then kk else s.reg r) ∧
    (s.Running → fetchWord s = some (encode (.ldImm x kk)) →
      ∃ t, step s = .next t ∧ t.Running ∧ t.reg x = kk ∧ t.pc = s.pc + 2)

/-- 42_immediate.md R131: ADD Vx,byte, its encoding 7xkk (match 0x7000, mask 0xF000) and its
effect: the sum modulo 256 in every state, and no flag: V15 keeps its value unless X is 15; its
whole cycle never faults and moves pc by 2. -/
def Obligations.AddImmediateWrapsWithoutFlag : Prop :=
  ∀ (s : State) (x : Reg) (kk : Byte),
    decodeWord (0x7#4 ++ (BitVec.ofFin x ++ kk : BitVec 12)) = .ok (.addImm x kk) ∧
    matchBits (.addImm x kk) = 0x7000#16 ∧ maskBits (.addImm x kk) = 0xF000#16 ∧
    decodeWord 0x7005#16 = .ok (.addImm 0 0x05#8) ∧
    (∃ t, exec (.addImm x kk) s = .next t ∧ SameButRegisters s t ∧
      (t.reg x).toNat = ((s.reg x).toNat + kk.toNat) % 256 ∧
      ∀ r, r ≠ x → t.reg r = s.reg r) ∧
    (s.Running → fetchWord s = some (encode (.addImm x kk)) →
      ∃ t, step s = .next t ∧ t.Running ∧ t.pc = s.pc + 2 ∧
        (t.reg x).toNat = ((s.reg x).toNat + kk.toNat) % 256)

/-- 43_register_alu.md R141 to R144: LD, OR, AND and XOR of registers complete in every state,
write Vx alone, and leave V15 as it was unless X is 15. -/
def Obligations.CopyAndLogicWriteOnlyVx : Prop :=
  ∀ (s : State) (x y : Reg),
    (∃ t, exec (.ldReg x y) s = .next t ∧ SameButRegisters s t ∧
      ∀ r, t.reg r = if r = x then s.reg y else s.reg r) ∧
    (∃ t, exec (.orReg x y) s = .next t ∧ SameButRegisters s t ∧
      ∀ r, t.reg r = if r = x then s.reg x ||| s.reg y else s.reg r) ∧
    (∃ t, exec (.andReg x y) s = .next t ∧ SameButRegisters s t ∧
      ∀ r, t.reg r = if r = x then s.reg x &&& s.reg y else s.reg r) ∧
    (∃ t, exec (.xorReg x y) s = .next t ∧ SameButRegisters s t ∧
      ∀ r, t.reg r = if r = x then s.reg x ^^^ s.reg y else s.reg r)

/-- 43_register_alu.md R145: ADD Vx,Vy completes in every state. The 9-bit sum is taken before any
write, Vx gets it modulo 256, and V15 gets the carry unless X is 15. -/
def Obligations.AddTakesItsSumFirst : Prop :=
  ∀ (s : State) (x y : Reg), ∃ t, exec (.addReg x y) s = .next t ∧ SameButRegisters s t ∧
    (t.reg x).toNat = ((s.reg x).toNat + (s.reg y).toNat) % 256 ∧
    (x ≠ 15 → t.reg 15 = bit ((s.reg x).toNat + (s.reg y).toNat > 255)) ∧
    ∀ r, r ≠ x → r ≠ 15 → t.reg r = s.reg r

/-- 43_register_alu.md R146: SUB completes in every state, with every corner case of X and Y (the
cases with 15 are the spec's decision D10: the difference reads the registers after the V15
write). -/
def Obligations.SubSubtractsAfterTheFlag : Prop :=
  ∀ (s : State) (x y : Reg), ∃ t, exec (.subReg x y) s = .next t ∧ SameButRegisters s t ∧
    (∀ r, r ≠ x → r ≠ 15 → t.reg r = s.reg r) ∧
    (x ≠ 15 → y ≠ 15 → t.reg 15 = bit ((s.reg x).toNat > (s.reg y).toNat) ∧
      t.reg x = s.reg x - s.reg y) ∧
    (x = 15 → y ≠ 15 →
      t.reg 15 = bit ((s.reg x).toNat > (s.reg y).toNat) - s.reg y) ∧
    (x ≠ 15 → y = 15 → t.reg 15 = bit ((s.reg x).toNat > (s.reg y).toNat) ∧
      t.reg x = s.reg x - bit ((s.reg x).toNat > (s.reg y).toNat)) ∧
    (x = 15 → y = 15 → t.reg 15 = 0) ∧
    (x = y → x ≠ 15 → t.reg 15 = 0 ∧ t.reg x = 0)

/-- 43_register_alu.md R148: SUBN completes in every state, with every corner case of X and Y (the
cases with 15 are the spec's decision D10). -/
def Obligations.SubnSubtractsAfterTheFlag : Prop :=
  ∀ (s : State) (x y : Reg), ∃ t, exec (.subnReg x y) s = .next t ∧ SameButRegisters s t ∧
    (∀ r, r ≠ x → r ≠ 15 → t.reg r = s.reg r) ∧
    (x ≠ 15 → y ≠ 15 → t.reg 15 = bit ((s.reg y).toNat > (s.reg x).toNat) ∧
      t.reg x = s.reg y - s.reg x) ∧
    (x = 15 → y ≠ 15 →
      t.reg 15 = s.reg y - bit ((s.reg y).toNat > (s.reg x).toNat)) ∧
    (x ≠ 15 → y = 15 → t.reg 15 = bit ((s.reg y).toNat > (s.reg x).toNat) ∧
      t.reg x = bit ((s.reg y).toNat > (s.reg x).toNat) - s.reg x) ∧
    (x = 15 → y = 15 → t.reg 15 = 0) ∧
    (x = y → x ≠ 15 → t.reg 15 = 0 ∧ t.reg x = 0)

/-- 43_register_alu.md R147: SHR completes in every state for every Y, which it never reads; V15
gets the bit shifted out, and with X = 15 it ends at 0 (the spec's decision D10). -/
def Obligations.ShrShiftsAfterTheFlag : Prop :=
  ∀ (s : State) (x y : Reg), ∃ t, exec (.shr x y) s = .next t ∧
    (∀ z, exec (.shr x z) s = .next t) ∧ SameButRegisters s t ∧
    (∀ r, r ≠ x → r ≠ 15 → t.reg r = s.reg r) ∧
    (x ≠ 15 → (t.reg 15).toNat = (s.reg x).toNat % 2 ∧
      (t.reg x).toNat = (s.reg x).toNat / 2) ∧
    (x = 15 → t.reg 15 = 0)

/-- 43_register_alu.md R149: SHL completes in every state for every Y, which it never reads; V15
gets the bit shifted out, and with X = 15 it ends at 2 or 0 (the spec's decision D10). -/
def Obligations.ShlShiftsAfterTheFlag : Prop :=
  ∀ (s : State) (x y : Reg), ∃ t, exec (.shl x y) s = .next t ∧
    (∀ z, exec (.shl x z) s = .next t) ∧ SameButRegisters s t ∧
    (∀ r, r ≠ x → r ≠ 15 → t.reg r = s.reg r) ∧
    (x ≠ 15 → (t.reg 15).toNat = (s.reg x).toNat / 128 ∧
      (t.reg x).toNat = (s.reg x).toNat * 2 % 256) ∧
    (x = 15 → t.reg 15 = if (s.reg x).toNat ≥ 128 then 2 else 0)

/-- 10_state.md R29, R30: the five flag-setting instructions write the flag of the table into V15
and then Vx, for every X; no other instruction changes V15 unless it names V15 as its
destination; and V15 resets to 0. -/
def Obligations.FlagIsWrittenBeforeVx : Prop :=
  (∀ (s : State) (x y : Reg),
    (∃ v, exec (.addReg x y) s = .next
      ((s.setReg 15 (bit ((s.reg x).toNat + (s.reg y).toNat > 255))).setReg x v)) ∧
    (∃ v, exec (.subReg x y) s = .next
      ((s.setReg 15 (bit ((s.reg x).toNat > (s.reg y).toNat))).setReg x v)) ∧
    (∃ v, exec (.subnReg x y) s = .next
      ((s.setReg 15 (bit ((s.reg y).toNat > (s.reg x).toNat))).setReg x v)) ∧
    (∃ v, exec (.shr x y) s = .next
      ((s.setReg 15 (bit ((s.reg x).getLsbD 0 = true))).setReg x v)) ∧
    (∃ v, exec (.shl x y) s = .next
      ((s.setReg 15 (bit ((s.reg x).getLsbD 7 = true))).setReg x v))) ∧
  (∀ (i : Instr) (s t : State), ¬ writesReg i 15 → exec i s = .next t →
    t.reg 15 = s.reg 15) ∧
  State.reset.reg 15 = 0

/-! ### The instructions outside the subset -/

/-- 30_encoding.md R92, 60_exceptions.md R161 and R163 (the spec's decisions D4 and D9): each of
the 17 unimplemented instructions completes, in every state and with every operand, by raising
UnimplementedOpcode with its own word, and changes nothing else (the record's fields: log entry
11). -/
def Obligations.UnimplementedInstructionsRaiseTheirFault : Prop :=
  ∀ (s : State) (nnn : Addr) (x y : Reg) (kk : Byte) (n : Nibble),
    let raised (w : Word) : Outcome := .next { s with
      fault := some ⟨.unimplementedOpcode, s.pc - 2, some w⟩ }
    exec (.sys nnn) s = raised (0x0#4 ++ nnn) ∧
    exec (.sneReg x y) s =
      raised (0x9#4 ++ (BitVec.ofFin x ++ (BitVec.ofFin y ++ 0x0#4 : BitVec 8) : BitVec 12)) ∧
    exec (.ldI nnn) s = raised (0xA#4 ++ nnn) ∧
    exec (.jpV0 nnn) s = raised (0xB#4 ++ nnn) ∧
    exec (.rnd x kk) s = raised (0xC#4 ++ (BitVec.ofFin x ++ kk : BitVec 12)) ∧
    exec (.drw x y n) s =
      raised (0xD#4 ++ (BitVec.ofFin x ++ (BitVec.ofFin y ++ n : BitVec 8) : BitVec 12)) ∧
    exec (.skp x) s = raised (0xE#4 ++ (BitVec.ofFin x ++ 0x9E#8 : BitVec 12)) ∧
    exec (.sknp x) s = raised (0xE#4 ++ (BitVec.ofFin x ++ 0xA1#8 : BitVec 12)) ∧
    exec (.ldVxDt x) s = raised (0xF#4 ++ (BitVec.ofFin x ++ 0x07#8 : BitVec 12)) ∧
    exec (.ldVxK x) s = raised (0xF#4 ++ (BitVec.ofFin x ++ 0x0A#8 : BitVec 12)) ∧
    exec (.ldDtVx x) s = raised (0xF#4 ++ (BitVec.ofFin x ++ 0x15#8 : BitVec 12)) ∧
    exec (.ldStVx x) s = raised (0xF#4 ++ (BitVec.ofFin x ++ 0x18#8 : BitVec 12)) ∧
    exec (.addI x) s = raised (0xF#4 ++ (BitVec.ofFin x ++ 0x1E#8 : BitVec 12)) ∧
    exec (.ldF x) s = raised (0xF#4 ++ (BitVec.ofFin x ++ 0x29#8 : BitVec 12)) ∧
    exec (.ldB x) s = raised (0xF#4 ++ (BitVec.ofFin x ++ 0x33#8 : BitVec 12)) ∧
    exec (.ldMemVx x) s = raised (0xF#4 ++ (BitVec.ofFin x ++ 0x55#8 : BitVec 12)) ∧
    exec (.ldVxMem x) s = raised (0xF#4 ++ (BitVec.ofFin x ++ 0x65#8 : BitVec 12))

/-! ### Frames and whole-machine rules -/

/-- The frame of the eleven register-writing instructions (10_state.md R22, R24, R26): only Vx,
and V15 for the five that set the flag, may change; every byte of memory reads as before. -/
def Obligations.RegisterInstructionsFrame : Prop :=
  ∀ (s t : State) (x y : Reg) (kk : Byte) (i : Instr),
    i ∈ [.ldImm x kk, .addImm x kk, .ldReg x y, .orReg x y, .andReg x y, .xorReg x y,
      .addReg x y, .subReg x y, .shr x y, .subnReg x y, .shl x y] →
    exec i s = .next t →
    KeepsAllButRegisters s t ∧
    (∀ r, r ≠ x → r ≠ 15 → t.reg r = s.reg r) ∧
    (i ∈ [.ldImm x kk, .addImm x kk, .ldReg x y, .orReg x y, .andReg x y, .xorReg x y] →
      ∀ r, r ≠ x → t.reg r = s.reg r)

/-- The frame of the skips, JP, CALL, RET and CLS (10_state.md R22, R34, R38; 20_memory.md R63): no
register, flag, timer, key, `index` or `opcode` changes and every byte of memory reads as before;
the framebuffer changes for CLS alone; sp changes for CALL and RET alone, and the stack for CALL
alone, in the slot sp named before it; `fault` changes for CALL and RET alone. -/
def Obligations.FlowInstructionsFrame : Prop :=
  ∀ (s t : State) (x y : Reg) (kk : Byte) (nnn : Addr) (i : Instr),
    i ∈ [.cls, .ret, .jp nnn, .call nnn, .seImm x kk, .sneImm x kk, .seReg x y] →
    exec i s = .next t →
    (∀ r, t.reg r = s.reg r) ∧ (∀ a, memRead a t = memRead a s) ∧ t.index = s.index ∧
    t.delayTimer = s.delayTimer ∧ t.soundTimer = s.soundTimer ∧ t.keypad = s.keypad ∧
    t.opcode = s.opcode ∧
    (i ≠ .cls → t.fb = s.fb) ∧
    (i ≠ .call nnn → t.stack = s.stack) ∧
    (∀ j : Fin 16, j.val ≠ s.sp.val → t.stack[j] = s.stack[j]) ∧
    (i ≠ .call nnn → i ≠ .ret → t.sp = s.sp ∧ t.fault = s.fault) ∧
    (i = .cls → t.pc = s.pc)

/-- The frame of the 17 instructions outside the subset (60_exceptions.md R163, R168): the fault
record alone changes; no register, no stack entry, no byte of memory and no pc does. -/
def Obligations.UnimplementedInstructionsFrame : Prop :=
  ∀ (i : Instr) (s t : State), i.implemented = false → exec i s = .next t →
    (∀ r, t.reg r = s.reg r) ∧ (∀ a, memRead a t = memRead a s) ∧ t.index = s.index ∧
    t.pc = s.pc ∧ t.stack = s.stack ∧ t.sp = s.sp ∧ t.delayTimer = s.delayTimer ∧
    t.soundTimer = s.soundTimer ∧ t.keypad = s.keypad ∧ t.fb = s.fb ∧ t.opcode = s.opcode

/-- 10_state.md R22, the table as a bound: an instruction of the subset changes no register outside
its "writes", and no register outside its "reads" influences it: from two states that differ only in
such registers it leaves the same values in the registers it writes and the same rest. (That the
listed registers are read and written is what the instructions' result statements say.) -/
def Obligations.InstructionsReadAndWriteTheListedRegisters : Prop :=
  ∀ (i : Instr) (s s' t : State), i.implemented = true → exec i s = .next t →
    (∀ r, ¬ writesReg i r → t.reg r = s.reg r) ∧
    (SameButRegisters s s' → (∀ r, readsReg i r → s'.reg r = s.reg r) →
      ∃ t', exec i s' = .next t' ∧ SameButRegisters t t' ∧
        (∀ r, writesReg i r → t'.reg r = t.reg r) ∧
        (∀ r, ¬ writesReg i r → t'.reg r = s'.reg r))

/-- 30_encoding.md R98: "No handler reads or writes `opcode` after dispatch", and a handler's
outputs are writes to `V`, `pc`, `sp`, `stack` and `fb`, or a fault. -/
def Obligations.HandlersWriteOnlyTheirOutputs : Prop :=
  ∀ (i : Instr) (s t : State), exec i s = .next t →
    t = { s with V := t.V, pc := t.pc, sp := t.sp, stack := t.stack, fb := t.fb,
                 fault := t.fault } ∧
    (t.fault ≠ s.fault → t = { s with fault := t.fault }) ∧
    ∀ w : Word, exec i { s with opcode := w } = .next { t with opcode := w }

/-- 10_state.md R26 [derived there], R28: where a completed cycle leaves pc, and that a faulting
cycle leaves it at p. -/
def Obligations.PcAfterEachCycle : Prop :=
  ∀ (s t : State) (w : Word) (i : Instr), s.Running → fetchWord s = some w →
    decodeWord w = .ok i → step s = .next t →
    t.pc = if t.fault = none then pcAfter i s else s.pc

/-- 10_state.md R39, 30_encoding.md R99: a completed cycle writes the fetched word into `opcode`; a
faulting one leaves it unchanged (the spec's decision D30). -/
def Obligations.OpcodeHoldsTheFetchedWord : Prop :=
  ∀ s t : State, s.Running → step s = .next t →
    (t.fault = none → some t.opcode = fetchWord s) ∧ (t.fault ≠ none → t.opcode = s.opcode)

/-! ### Invariants -/

/-- The invariant holds right after `Reset`. -/
def Obligations.ResetMeetsTheInvariant : Prop := State.reset.Inv

/-- Every step keeps the invariant of Safety.lean: canonical memory, pc at most 0x1002 (10_state.md
R28), live stack entries at most 0x1000 (40_flow.md R111), `index` never written (10_state.md
R32), every framebuffer cell off (60_exceptions.md R181). -/
def Obligations.StepKeepsTheInvariant : Prop :=
  ∀ s t : State, s.Inv → step s = .next t → t.Inv

/-- Every operation of the host keeps the invariant, so every block reached from `Reset` by any
list of operations meets it (10_state.md R45, 60_exceptions.md R181). -/
def Obligations.ReachableBlocksMeetTheInvariant : Prop :=
  (∀ (op : BlockOp) (b : Block), b.state.Inv → (b.apply op).1.state.Inv) ∧
  (∀ b : Block, b.Reachable → b.state.Inv)

/-- 60_exceptions.md R173, R174, R179 [derived there]: no cycle reads or writes the timers, the keys
or `index`: with any other values of them it does the same and leaves them as they are. -/
def Obligations.DevicesDoNotInfluenceTheCycle : Prop :=
  ∀ (s t : State) (d e : Byte) (k : Vector Bool 16) (x : Word), step s = .next t →
    t.delayTimer = s.delayTimer ∧ t.soundTimer = s.soundTimer ∧ t.keypad = s.keypad ∧
    t.index = s.index ∧
    step { s with delayTimer := d, soundTimer := e, keypad := k, index := x } =
      .next { t with delayTimer := d, soundTimer := e, keypad := k, index := x }

/-! ### The host's operations -/

/-- 60_exceptions.md R175: a tick decrements each timer that is not 0, a timer at 0 stays at 0 (the
spec's decision D17), and nothing else changes. -/
def Obligations.TimerTickCountsDownToZero : Prop :=
  ∀ b : Block, ∃ t, b.apply .timerTick = ({ b with state := t }, .ok) ∧
    t = { b.state with delayTimer := t.delayTimer, soundTimer := t.soundTimer } ∧
    t.delayTimer.toNat = b.state.delayTimer.toNat - 1 ∧
    t.soundTimer.toNat = b.state.soundTimer.toNat - 1

/-- 60_exceptions.md R178 (the spec's decision D19): `SetKey(k, b)` writes that key and nothing
else. -/
def Obligations.SetKeyWritesOneKey : Prop :=
  ∀ (b : Block) (k : Fin 16) (v : Bool), ∃ t,
    b.apply (.setKey k v) = ({ b with state := t }, .ok) ∧
    t = { b.state with keypad := t.keypad } ∧
    ∀ j : Fin 16, t.keypad[j] = if j = k then v else b.state.keypad[j]

/-- 60_exceptions.md R177: `ReadSound()` returns `soundTimer != 0` and changes nothing. -/
def Obligations.ReadSoundTellsNonZeroTimer : Prop :=
  ∀ b : Block, b.apply .readSound = (b, .sound (decide (b.state.soundTimer ≠ 0x00#8)))

/-- 60_exceptions.md R180, 10_state.md R38 (the spec's decision D13): `ReadFramebuffer()` returns a
word per cell, 0 for off and one fixed word that is not 0 for on, and changes nothing. -/
def Obligations.ReadFramebufferRendersEachCell : Prop :=
  ∀ b : Block, ∃ ws : Vector (BitVec 32) 2048, b.apply .readFramebuffer = (b, .pixels ws) ∧
    Config.pixelOnWord ≠ 0x00000000#32 ∧
    ∀ c : Fin 2048, ws[c] = if b.state.fb[c] = true then Config.pixelOnWord else 0x00000000#32

/-- 60_exceptions.md R165, R166 (the spec's decisions D9 and D28): the cycle that faults returns the
record; after it and any list of host operations without `Reset`, `ReadFault` and `Cycle` return the
same record and change nothing; and a `Reset` whose font fits clears it. -/
def Obligations.FaultIsReportedUntilReset : Prop :=
  ∀ (b : Block) (t : State) (r : FaultRecord), step b.state = .next t → t.fault = some r →
    b.apply .cycle = ({ state := t, phase := .running }, .faulted r) ∧
    (∀ ops : List BlockOp, (∀ op ∈ ops, op.isReset = false) →
      let c := Block.run ops (b.apply .cycle).1
      c.apply .readFault = (c, .faultStatus (some r)) ∧ c.apply .cycle = (c, .faulted r) ∧
      ∀ (base : Nat) (bytes : List Byte) (seed : Nat), base + bytes.length ≤ 0x200 →
        (c.apply (.reset base bytes seed)).1.apply .readFault =
          ((c.apply (.reset base bytes seed)).1, .faultStatus none))

/-- 30_encoding.md R84, 60_exceptions.md R166 (the spec's decisions D9 and D28): `Cycle` of a block
that is not halted has a step, keeps its state, and returns ok when the cycle completed and the
record when it faulted; `ReadFault` returns the value of `fault`, none on such a block, and changes
nothing. (That a cycle moves the block's phase to `running` is the model's: log entry 8.) -/
def Obligations.CycleReturnsOkOrTheRecord : Prop :=
  (∀ b : Block, b.state.fault = none → ∃ t, step b.state = .next t ∧
    (t.fault = none → b.apply .cycle = ({ state := t, phase := .running }, .ok)) ∧
    (∀ r, t.fault = some r → b.apply .cycle = ({ state := t, phase := .running }, .faulted r))) ∧
  (∀ b : Block, b.apply .readFault = (b, .faultStatus b.state.fault))

/-! ### The end of a run -/

/-- 70_reset_and_hazards.md R202 (the spec's decision D24): from every state and with every named
count the run ends, after at most that many cycles, at the first state where (a) a fault is
recorded, (b) the word at pc is a jump to itself, or (c) the count is reached; it ends at (a) or (b)
after `k` cycles exactly when a run with no count does. (Which cause is named where two hold of one
state is the model's choice: log entry 15.) -/
def Obligations.RunEndsAtTheFirstOfThree : Prop :=
  ∀ (n : Nat) (s : State), ∃ r : RunResult, runToEnd n s = some r ∧
    r.cycles ≤ n ∧ stepN r.cycles s = some r.state ∧
    (∀ k, k < r.cycles → ∃ t, stepN k s = some t ∧ ¬ EndsFaulted t ∧ ¬ EndsAtSelfJump t) ∧
    (∀ f, r.cause = .faulted f ↔ r.state.fault = some f) ∧
    (r.cause = .selfJump ↔ EndsAtSelfJump r.state) ∧
    (r.cause = .countReached ↔
      r.cycles = n ∧ ¬ EndsFaulted r.state ∧ ¬ EndsAtSelfJump r.state) ∧
    (∀ k, EndsAfter k s → k ≤ n → r.cycles = k ∧ r.cause ≠ .countReached) ∧
    (r.cause ≠ .countReached → EndsAfter r.cycles s)
end

