-- ==== Sys2Proof/Laws/Encoding.lean ====
section
/-! SUPPORT. The fields of a word put together from its fields, and a word put together again from
the fields read from it. -/

namespace Sys2Proof

theorem extract_append_high {n k : Nat} (a : BitVec n) (b : BitVec k) :
    (a ++ b).extractLsb' k n = a := BitVec.extractLsb'_append_eq_left

theorem extract_append_low {n k : Nat} (a : BitVec n) (b : BitVec k) :
    (a ++ b).extractLsb' 0 k = b := BitVec.extractLsb'_append_eq_right

/-! ### Format `addr` -/

@[simp] theorem fieldF_encodeAddr (f : Nibble) (nnn : Addr) : fieldF (encodeAddr f nnn) = f :=
  extract_append_high f nnn

@[simp] theorem fieldNNN_encodeAddr (f : Nibble) (nnn : Addr) :
    fieldNNN (encodeAddr f nnn) = nnn := extract_append_low f nnn

/-! ### Formats `reg_imm` and `reg` -/

@[simp] theorem fieldF_encodeRegImm (f : Nibble) (x : Reg) (kk : Byte) :
    fieldF (encodeRegImm f x kk) = f := extract_append_high f (regBits x ++ kk)

@[simp] theorem fieldKK_encodeRegImm (f : Nibble) (x : Reg) (kk : Byte) :
    fieldKK (encodeRegImm f x kk) = kk := by
  have h := BitVec.extractLsb'_append_eq_of_add_le (xhi := f) (xlo := (regBits x ++ kk : Addr))
    (start := 0) (len := 8) (by omega)
  exact h.trans (extract_append_low (regBits x) kk)

@[simp] theorem fieldX_encodeRegImm (f : Nibble) (x : Reg) (kk : Byte) :
    fieldX (encodeRegImm f x kk) = x := by
  have h := BitVec.extractLsb'_append_eq_of_add_le (xhi := f) (xlo := (regBits x ++ kk : Addr))
    (start := 8) (len := 4) (by omega)
  exact congrArg BitVec.toFin (h.trans (extract_append_high (regBits x) kk))

/-! ### Formats `reg_reg`, `reg_shift` and `reg_reg_n` -/

@[simp] theorem fieldF_encodeRegReg (f : Nibble) (x y : Reg) (n : Nibble) :
    fieldF (encodeRegReg f x y n) = f := extract_append_high f (regBits x ++ (regBits y ++ n))

@[simp] theorem fieldX_encodeRegReg (f : Nibble) (x y : Reg) (n : Nibble) :
    fieldX (encodeRegReg f x y n) = x := fieldX_encodeRegImm f x (regBits y ++ n)

@[simp] theorem fieldY_encodeRegReg (f : Nibble) (x y : Reg) (n : Nibble) :
    fieldY (encodeRegReg f x y n) = y := by
  have h := BitVec.extractLsb'_append_eq_of_add_le (xhi := f)
    (xlo := (regBits x ++ (regBits y ++ n) : Addr)) (start := 4) (len := 4) (by omega)
  have h' := BitVec.extractLsb'_append_eq_of_add_le (xhi := regBits x)
    (xlo := (regBits y ++ n : Byte)) (start := 4) (len := 4) (by omega)
  exact congrArg BitVec.toFin (h.trans (h'.trans (extract_append_high (regBits y) n)))

@[simp] theorem fieldN_encodeRegReg (f : Nibble) (x y : Reg) (n : Nibble) :
    fieldN (encodeRegReg f x y n) = n := by
  have h := BitVec.extractLsb'_append_eq_of_add_le (xhi := f)
    (xlo := (regBits x ++ (regBits y ++ n) : Addr)) (start := 0) (len := 4) (by omega)
  have h' := BitVec.extractLsb'_append_eq_of_add_le (xhi := regBits x)
    (xlo := (regBits y ++ n : Byte)) (start := 0) (len := 4) (by omega)
  exact h.trans (h'.trans (extract_append_low (regBits y) n))

/-- A nibble that is none of 0 to 14 is 15: what the last arm of `decodeWord` stands for. -/
theorem nibble_eq_fifteen (f : Nibble) (h : ∀ k : Nat, k < 15 → f ≠ BitVec.ofNat 4 k) :
    f = 0xF#4 := by
  have hf := f.isLt
  by_contra hne
  refine h f.toNat ?_ (by simp)
  have : f.toNat ≠ 15 := fun e => hne (BitVec.eq_of_toNat_eq (by simpa using e))
  omega

/-- Every nibble is one of the sixteen. -/
theorem nibble_cases (f : Nibble) : f ∈ [0x0#4, 0x1#4, 0x2#4, 0x3#4, 0x4#4, 0x5#4, 0x6#4, 0x7#4,
    0x8#4, 0x9#4, 0xA#4, 0xB#4, 0xC#4, 0xD#4, 0xE#4, 0xF#4] := by
  obtain ⟨g⟩ := f
  revert g
  decide

/-! ### A word from the fields read from it -/

@[simp] theorem regBits_fieldX (w : Word) : regBits (fieldX w) = w.extractLsb' 8 4 := rfl

@[simp] theorem regBits_fieldY (w : Word) : regBits (fieldY w) = w.extractLsb' 4 4 := rfl

theorem encodeAddr_fields (w : Word) : encodeAddr (fieldF w) (fieldNNN w) = w :=
  (BitVec.extractLsb'_append_extractLsb'_eq_extractLsb' rfl).trans BitVec.extractLsb'_eq_self

theorem encodeRegImm_fields (w : Word) : encodeRegImm (fieldF w) (fieldX w) (fieldKK w) = w := by
  have h : (w.extractLsb' 8 4 ++ w.extractLsb' 0 8 : Addr) = w.extractLsb' 0 12 :=
    BitVec.extractLsb'_append_extractLsb'_eq_extractLsb' rfl
  have e : encodeRegImm (fieldF w) (fieldX w) (fieldKK w) = encodeAddr (fieldF w) (fieldNNN w) :=
    congrArg (encodeAddr (fieldF w)) h
  rw [e, encodeAddr_fields]

theorem encodeRegReg_fields (w : Word) :
    encodeRegReg (fieldF w) (fieldX w) (fieldY w) (fieldN w) = w := by
  have h : (w.extractLsb' 4 4 ++ w.extractLsb' 0 4 : Byte) = w.extractLsb' 0 8 :=
    BitVec.extractLsb'_append_extractLsb'_eq_extractLsb' rfl
  have e : encodeRegReg (fieldF w) (fieldX w) (fieldY w) (fieldN w)
      = encodeRegImm (fieldF w) (fieldX w) (fieldKK w) :=
    congrArg (encodeRegImm (fieldF w) (fieldX w)) h
  rw [e, encodeRegImm_fields]

/-- A word's two bytes put together give it back (20_memory.md R64). -/
@[simp] theorem wordOfBytes_bytes (w : Word) : wordOfBytes (highByte w) (lowByte w) = w :=
  (BitVec.extractLsb'_append_extractLsb'_eq_extractLsb' rfl).trans BitVec.extractLsb'_eq_self

/-- The formula of 30_encoding.md R84: `(zext_16(hi) << 8) | zext_16(lo)`. -/
theorem wordOfBytes_eq (hi lo : Byte) :
    wordOfBytes hi lo = (hi.zeroExtend 16 <<< 8) ||| lo.zeroExtend 16 := by
  have e : (wordOfBytes hi lo).toNat = hi.toNat <<< 8 ||| lo.toNat := BitVec.toNat_append hi lo
  have h : hi.toNat % 65536 = hi.toNat := by omega
  have l : lo.toNat % 65536 = lo.toNat := by omega
  have hs : hi.toNat <<< 8 < 65536 := by simp only [Nat.shiftLeft_eq]; omega
  apply BitVec.eq_of_toNat_eq
  simp [e, h, l, Nat.mod_eq_of_lt hs]

end Sys2Proof
end

