-- ==== Sys2Proof/Laws/Assembly.lean ====
section
/-! SUPPORT. The texts of spec/30_encoding.md R95 taken apart again: a text is its mnemonic, its
first operand and its second, and these name one instruction of the subset, so no text stands for
two words. -/

namespace Sys2Proof.Laws

open Sys2Proof.Machine

/-! ### Operands -/

theorem regText_injective : ∀ x y : Reg, (regText x).toList = (regText y).toList → x = y := by
  decide

theorem regText_start : ∀ x : Reg, (regText x).toList.head? = some 'V' := by decide

theorem hexDigit_injective (a b : Nibble) (h : (hexDigit a).toList = (hexDigit b).toList) :
    a = b := by
  revert h
  obtain ⟨x⟩ := a
  obtain ⟨y⟩ := b
  revert x y
  decide

theorem hexDigit_length (a : Nibble) : (hexDigit a).toList.length = 1 := by
  obtain ⟨x⟩ := a
  revert x
  decide

/-- No operand's character separates: it is no space and no comma. -/
def plain (c : Char) : Bool := c != ' ' && c != ','

theorem regText_plain : ∀ x : Reg, (regText x).toList.all plain = true := by decide

theorem hexDigit_plain (a : Nibble) : (hexDigit a).toList.all plain = true := by
  obtain ⟨x⟩ := a
  revert x
  decide

theorem byteText_toList (kk : Byte) : (byteText kk).toList = '0' :: 'x' ::
    ((hexDigit (kk.extractLsb' 4 4)).toList ++ (hexDigit (kk.extractLsb' 0 4)).toList) := by
  simp [byteText]

theorem addrText_toList (nnn : Addr) : (addrText nnn).toList = '0' :: 'x' ::
    ((hexDigit (nnn.extractLsb' 8 4)).toList ++ ((hexDigit (nnn.extractLsb' 4 4)).toList
      ++ (hexDigit (nnn.extractLsb' 0 4)).toList)) := by
  simp [addrText]

theorem byteText_plain (kk : Byte) : (byteText kk).toList.all plain = true := by
  simp only [byteText_toList, List.all_cons, List.all_append, hexDigit_plain]
  decide

theorem addrText_plain (nnn : Addr) : (addrText nnn).toList.all plain = true := by
  simp only [addrText_toList, List.all_cons, List.all_append, hexDigit_plain]
  decide

theorem byteText_injective (a b : Byte) (h : (byteText a).toList = (byteText b).toList) :
    a = b := by
  simp only [byteText_toList, List.cons.injEq, true_and] at h
  obtain ⟨hi, lo⟩ := List.append_inj h (by simp only [hexDigit_length])
  have e : (a.extractLsb' 4 4 ++ a.extractLsb' 0 4 : Byte)
      = (b.extractLsb' 4 4 ++ b.extractLsb' 0 4 : Byte) := by
    rw [hexDigit_injective _ _ hi, hexDigit_injective _ _ lo]
  have g : ∀ k : Byte, (k.extractLsb' 4 4 ++ k.extractLsb' 0 4 : Byte) = k := fun k =>
    (BitVec.extractLsb'_append_extractLsb'_eq_extractLsb' rfl).trans BitVec.extractLsb'_eq_self
  rwa [g, g] at e

theorem addrText_injective (a b : Addr) (h : (addrText a).toList = (addrText b).toList) :
    a = b := by
  simp only [addrText_toList, List.cons.injEq, true_and] at h
  obtain ⟨hi, h⟩ := List.append_inj h (by simp only [hexDigit_length])
  obtain ⟨mid, lo⟩ := List.append_inj h (by simp only [hexDigit_length])
  have e : (a.extractLsb' 8 4 ++ (a.extractLsb' 4 4 ++ a.extractLsb' 0 4 : Byte) : Addr)
      = (b.extractLsb' 8 4 ++ (b.extractLsb' 4 4 ++ b.extractLsb' 0 4 : Byte) : Addr) := by
    rw [hexDigit_injective _ _ hi, hexDigit_injective _ _ mid, hexDigit_injective _ _ lo]
  have g : ∀ k : Addr,
      (k.extractLsb' 8 4 ++ (k.extractLsb' 4 4 ++ k.extractLsb' 0 4 : Byte) : Addr) = k :=
    fun k => by
      have q : (k.extractLsb' 4 4 ++ k.extractLsb' 0 4 : Byte) = k.extractLsb' 0 8 :=
        BitVec.extractLsb'_append_extractLsb'_eq_extractLsb' rfl
      rw [q]
      exact (BitVec.extractLsb'_append_extractLsb'_eq_extractLsb' rfl).trans
        BitVec.extractLsb'_eq_self
  rwa [g, g] at e

theorem regText_inj {x y : Reg} : (regText x).toList = (regText y).toList ↔ x = y :=
  ⟨regText_injective x y, fun h => by rw [h]⟩

theorem byteText_inj {a b : Byte} : (byteText a).toList = (byteText b).toList ↔ a = b :=
  ⟨byteText_injective a b, fun h => by rw [h]⟩

theorem addrText_inj {a b : Addr} : (addrText a).toList = (addrText b).toList ↔ a = b :=
  ⟨addrText_injective a b, fun h => by rw [h]⟩

/-- A register operand is no byte operand. -/
theorem regText_ne_byteText (x : Reg) (kk : Byte) :
    (regText x).toList ≠ (byteText kk).toList := fun h => by
  have s := regText_start x
  rw [h, byteText_toList] at s
  cases s

/-! ### Texts -/

/-- The parts of a text: its mnemonic and its operands. -/
structure Parts where
  /-- The mnemonic. -/
  mnemonic : String
  /-- The first operand, empty if there is none. -/
  first : List Char
  /-- The second operand, empty if there is none. -/
  second : List Char

/-- The text put together from its parts. -/
def Parts.join (p : Parts) : List Char :=
  p.mnemonic.toList ++ (if p.first = [] then [] else
    ' ' :: p.first ++ (if p.second = [] then [] else ',' :: p.second))

/-- The parts of an instruction's text; an instruction outside the subset has none. -/
def partsOf (i : Instr) : Option Parts :=
  match i with
  | .cls => some ⟨"CLS", [], []⟩
  | .ret => some ⟨"RET", [], []⟩
  | .jp nnn => some ⟨"JP", (addrText nnn).toList, []⟩
  | .call nnn => some ⟨"CALL", (addrText nnn).toList, []⟩
  | .seImm x kk => some ⟨"SE", (regText x).toList, (byteText kk).toList⟩
  | .sneImm x kk => some ⟨"SNE", (regText x).toList, (byteText kk).toList⟩
  | .seReg x y => some ⟨"SE", (regText x).toList, (regText y).toList⟩
  | .ldImm x kk => some ⟨"LD", (regText x).toList, (byteText kk).toList⟩
  | .addImm x kk => some ⟨"ADD", (regText x).toList, (byteText kk).toList⟩
  | .ldReg x y => some ⟨"LD", (regText x).toList, (regText y).toList⟩
  | .orReg x y => some ⟨"OR", (regText x).toList, (regText y).toList⟩
  | .andReg x y => some ⟨"AND", (regText x).toList, (regText y).toList⟩
  | .xorReg x y => some ⟨"XOR", (regText x).toList, (regText y).toList⟩
  | .addReg x y => some ⟨"ADD", (regText x).toList, (regText y).toList⟩
  | .subReg x y => some ⟨"SUB", (regText x).toList, (regText y).toList⟩
  | .shr x _ => some ⟨"SHR", (regText x).toList, []⟩
  | .subnReg x y => some ⟨"SUBN", (regText x).toList, (regText y).toList⟩
  | .shl x _ => some ⟨"SHL", (regText x).toList, []⟩
  | .sys _ | .sneReg _ _ | .ldI _ | .jpV0 _ | .rnd _ _ | .drw _ _ _ | .skp _ | .sknp _
  | .ldVxDt _ | .ldVxK _ | .ldDtVx _ | .ldStVx _ | .addI _ | .ldF _ | .ldB _ | .ldMemVx _
  | .ldVxMem _ => none

theorem regText_ne_empty (x : Reg) : regText x ≠ "" := fun h => by
  have s := regText_start x
  rw [h] at s
  cases s

theorem byteText_ne_empty (kk : Byte) : byteText kk ≠ "" := fun h => by
  have s := byteText_toList kk
  rw [h] at s
  cases s

theorem addrText_ne_empty (nnn : Addr) : addrText nnn ≠ "" := fun h => by
  have s := addrText_toList nnn
  rw [h] at s
  cases s

/-- A text is its parts put together. -/
theorem disassemble_join (i : Instr) :
    (disassemble i).map String.toList = (partsOf i).map Parts.join := by
  cases i <;>
    simp [disassemble, partsOf, Parts.join, regText_ne_empty, byteText_ne_empty, addrText_ne_empty]

/-- The parts hold no separator. -/
theorem partsOf_plain {i : Instr} {p : Parts} (h : partsOf i = some p) :
    p.mnemonic.toList.all plain = true ∧ p.first.all plain = true ∧ p.second.all plain = true := by
  have mnemonic : ∀ m ∈ ["CLS", "RET", "JP", "CALL", "SE", "SNE", "LD", "ADD", "OR", "AND", "XOR",
      "SUB", "SHR", "SUBN", "SHL"], m.toList.all plain = true := by decide
  cases i <;> cases h <;> refine ⟨mnemonic _ (by simp), ?_, ?_⟩ <;>
    simp only [regText_plain, byteText_plain, addrText_plain, List.all_nil]

/-- A text with no first operand has no second. -/
theorem partsOf_first {i : Instr} {p : Parts} (h : partsOf i = some p) :
    p.first = [] → p.second = [] := by
  cases i <;> cases h <;>
    simp [regText_ne_empty, addrText_ne_empty]

/-- A word without separators is cut off where the next separator stands. -/
theorem plain_append_inj {a b r s : List Char} {c d : Char} (ha : a.all plain = true)
    (hb : b.all plain = true) (hc : plain c = false) (hd : plain d = false)
    (h : a ++ c :: r = b ++ d :: s) : a = b ∧ c = d ∧ r = s := by
  induction a generalizing b with
  | nil =>
    cases b with
    | nil => simpa using h
    | cons y b =>
      simp only [List.nil_append, List.cons_append, List.cons.injEq] at h
      simp [← h.1, hc] at hb
  | cons x a ih =>
    simp only [List.all_cons, Bool.and_eq_true] at ha
    cases b with
    | nil =>
      simp only [List.nil_append, List.cons_append, List.cons.injEq] at h
      simp [h.1, hd] at ha
    | cons y b =>
      simp only [List.all_cons, Bool.and_eq_true] at hb
      simp only [List.cons_append, List.cons.injEq] at h
      obtain ⟨e, t⟩ := ih ha.2 hb.2 h.2
      exact ⟨by rw [h.1, e], t⟩

/-- A word without separators is not one with a separator. -/
theorem plain_ne_append {a b r : List Char} {c : Char} (ha : a.all plain = true)
    (hc : plain c = false) : a ≠ b ++ c :: r := fun h => by
  rw [h] at ha
  simp [hc] at ha

/-- Texts that are equal have equal parts. -/
theorem join_injective {p q : Parts}
    (hp : p.mnemonic.toList.all plain = true ∧ p.first.all plain = true ∧ p.second.all plain = true)
    (hq : q.mnemonic.toList.all plain = true ∧ q.first.all plain = true ∧ q.second.all plain = true)
    (hp2 : p.first = [] → p.second = []) (hq2 : q.first = [] → q.second = [])
    (h : p.join = q.join) :
    p.mnemonic = q.mnemonic ∧ p.first = q.first ∧ p.second = q.second := by
  have space : plain ' ' = false := by decide
  have comma : plain ',' = false := by decide
  obtain ⟨m, a, b⟩ := p
  obtain ⟨n, c, d⟩ := q
  have str : m.toList = n.toList → m = n := String.toList_inj.mp
  simp only [Parts.join] at h
  by_cases ha : a = [] <;> by_cases hc : c = []
  · simp only [ha, hc, if_true, List.append_nil] at h
    exact ⟨str h, ha.trans hc.symm, (hp2 ha).trans (hq2 hc).symm⟩
  · simp only [ha, hc, if_true, if_false, List.append_nil] at h
    exact absurd h (plain_ne_append hp.1 space)
  · simp only [ha, hc, if_true, if_false, List.append_nil] at h
    exact absurd h.symm (plain_ne_append hq.1 space)
  · simp only [ha, hc, if_false, List.cons_append] at h
    obtain ⟨e, -, h⟩ := plain_append_inj hp.1 hq.1 space space h
    refine ⟨str e, ?_⟩
    by_cases hb : b = [] <;> by_cases hd : d = []
    · simp only [hb, hd, if_true, List.append_nil] at h
      exact ⟨h, hb.trans hd.symm⟩
    · simp only [hb, hd, if_true, if_false, List.append_nil] at h
      exact absurd h (plain_ne_append hp.2.1 comma)
    · simp only [hb, hd, if_true, if_false, List.append_nil] at h
      exact absurd h.symm (plain_ne_append hq.2.1 comma)
    · simp only [hb, hd, if_false] at h
      obtain ⟨e, -, h⟩ := plain_append_inj hp.2.1 hq.2.1 comma comma h
      exact ⟨e, h⟩

/-- The parts of a text name one instruction, with Y = 0 for the shifts. -/
theorem partsOf_injective {i j : Instr} {p : Parts} (hi : partsOf i = some p)
    (hj : partsOf j = some p) : reassembled i = reassembled j := by
  cases i <;> cases hi <;> cases j <;>
    simp only [partsOf, Option.some.injEq, Parts.mk.injEq, reduceCtorEq, String.reduceEq,
      false_and] at hj
  all_goals first
    | rfl
    | simp only [regText_inj, byteText_inj, addrText_inj, true_and, and_true, regText_ne_byteText,
        (regText_ne_byteText _ _).symm, and_false] at hj <;> simp [reassembled, hj]

/-- A text is the text of one instruction, with Y = 0 for the shifts. -/
theorem disassemble_injective {i j : Instr} {t u : String} (hi : disassemble i = some t)
    (hj : disassemble j = some u) (h : t.toList = u.toList) : reassembled i = reassembled j := by
  have di := disassemble_join i
  have dj := disassemble_join j
  rw [hi, Option.map_some] at di
  rw [hj, Option.map_some] at dj
  obtain ⟨p, pi, ei⟩ := Option.map_eq_some_iff.mp di.symm
  obtain ⟨q, qj, ej⟩ := Option.map_eq_some_iff.mp dj.symm
  have e := join_injective (partsOf_plain pi) (partsOf_plain qj) (partsOf_first pi)
    (partsOf_first qj) (ei.trans (h.trans ej.symm))
  have pq : p = q := by
    obtain ⟨m, a, b⟩ := p
    obtain ⟨n, c, d⟩ := q
    simpa using e
  exact partsOf_injective pi (pq ▸ qj)

/-! ### The spaces after a comma -/

/-- A word without separators keeps its characters. -/
theorem dropCommaSpaces_plain {l : List Char} (r : List Char) (h : l.all plain = true) :
    dropCommaSpaces false (l ++ r) = l ++ dropCommaSpaces false r := by
  induction l with
  | nil => rfl
  | cons c l ih =>
    simp only [List.all_cons, Bool.and_eq_true, plain, bne_iff_ne, ne_eq] at h
    have hc : (c == ',') = false := by simpa using h.1.2
    simp only [List.cons_append, dropCommaSpaces, Bool.false_and, hc]
    exact congrArg (c :: ·) (ih h.2)

/-- A word without separators after a comma keeps its characters. -/
theorem dropCommaSpaces_after {l : List Char} (h : l.all plain = true) :
    dropCommaSpaces true l = l := by
  cases l with
  | nil => rfl
  | cons c l =>
    simp only [List.all_cons, Bool.and_eq_true] at h
    have hp := h.1
    simp only [plain, Bool.and_eq_true, bne_iff_ne, ne_eq] at hp
    have hs : (c == ' ') = false := by simpa using hp.1
    have hc : (c == ',') = false := by simpa using hp.2
    simp only [dropCommaSpaces, Bool.true_and, hs, hc]
    have e := dropCommaSpaces_plain [] h.2
    simp only [List.append_nil, dropCommaSpaces] at e
    exact congrArg (c :: ·) e

/-- A text that `disassemble` prints has no space after a comma. -/
theorem dropCommaSpaces_text {i : Instr} {t : String} (h : disassemble i = some t) :
    dropCommaSpaces false t.toList = t.toList := by
  have d := disassemble_join i
  rw [h, Option.map_some] at d
  obtain ⟨p, hp, e⟩ := Option.map_eq_some_iff.mp d.symm
  obtain ⟨pm, pf, ps⟩ := partsOf_plain hp
  have whole : ∀ l : List Char, l.all plain = true → dropCommaSpaces false l = l := fun l hl => by
    simpa [dropCommaSpaces] using dropCommaSpaces_plain [] hl
  rw [← e]
  simp only [Parts.join]
  rw [dropCommaSpaces_plain _ pm]
  congr 1
  split
  · rfl
  · simp only [List.cons_append, dropCommaSpaces, Bool.false_and, Bool.false_eq_true, if_false,
      show (' ' == ',') = false from by decide]
    rw [dropCommaSpaces_plain _ pf]
    split
    · rfl
    · simp only [dropCommaSpaces, Bool.false_and, Bool.false_eq_true, if_false,
        show (',' == ',') = true from by decide]
      rw [dropCommaSpaces_after ps]

/-! ### What a text spells -/

theorem reassembled_idem (i : Instr) : reassembled (reassembled i) = reassembled i := by
  cases i <;> rfl

theorem disassemble_reassembled (i : Instr) : disassemble (reassembled i) = disassemble i := by
  cases i <;> rfl

/-- What `spells` says of a word. -/
theorem spells_iff {l : List Char} {w : Word} : spells l w = true ↔
    ∃ j t, decodeWord w = .ok j ∧ reassembled j = j ∧ disassemble j = some t ∧ t.toList = l := by
  unfold spells
  cases hd : decodeWord w with
  | error e => simp
  | ok j =>
    cases ht : disassemble j <;>
      simp [Bool.and_eq_true, ht]

/-- The search of `assemble` finds the one word that a text without spaces after its comma
spells. -/
theorem assemble_of_unique {text : String} {w : Word}
    (hs : dropCommaSpaces false text.toList = text.toList)
    (h : ∀ v, spells text.toList v = true ↔ v = w) : assemble text = some w := by
  unfold assemble
  rw [hs]
  have mem : w ∈ (List.range 65536).map (BitVec.ofNat 16) :=
    List.mem_map.mpr ⟨w.toNat, List.mem_range.mpr w.isLt, by simp⟩
  cases hf : ((List.range 65536).map (BitVec.ofNat 16)).find? (spells text.toList) with
  | none =>
    exact absurd ((h w).mpr rfl) (by simpa using List.find?_eq_none.mp hf w mem)
  | some v => rw [(h v).mp (List.find?_some hf)]

end Sys2Proof.Laws
end

