-- ==== Sys2Proof/Laws/Memory.lean ====
section
/-! SUPPORT. Memory: a read after a write, and that every memory operation keeps the canonical
form. -/

namespace Sys2Proof.Machine

theorem resetByte_of_ge {a : Nat} (h : 0x200 ≤ a) : resetByte a = 0x00#8 := by
  simp [resetByte, fontByte, h]

/-- A font that fits below 0x200 reads as its bytes at its base, and 0 elsewhere. -/
theorem fontByte_eq {base : Nat} {bytes : List Byte} (h : base + bytes.length ≤ 0x200) (a : Nat) :
    fontByte base bytes a =
      if base ≤ a ∧ a < base + bytes.length then bytes.getD (a - base) 0x00#8 else 0x00#8 := by
  simp only [fontByte, Config.programOrigin]
  split
  · rw [if_neg (by omega)]
  · split
    · split
      · rfl
      · exact List.getD_eq_default _ _ (by omega)
    · rw [if_neg (by omega)]

/-- 00_scope.md R8: the font fits below 0x200. -/
theorem font_fits : Config.fontBase.val + Config.fontBytes.length ≤ 0x200 := by
  have := Config.fontBase.isLt
  simp only [Config.fontBytes, List.length_take]
  omega

@[simp] theorem Memory.read_nil (a : Nat) : Memory.read [] a = resetByte a := rfl

/-- An address below every listed one is unlisted. -/
theorem Memory.read_of_unlisted {m : Memory} {a : Nat} (h : ∀ c ∈ m, c.1 ≠ a) :
    Memory.read m a = resetByte a := by
  induction m with
  | nil => rfl
  | cons c rest ih =>
    have hc := h c (by simp)
    simp only [Memory.read, hc, if_false]
    exact ih fun d hd => h d (by simp [hd])

/-- A byte stored in canonical memory is read back. -/
theorem Memory.read_write_same {m : Memory} {a : Nat} (v : Byte)
    (h : m.Pairwise (fun c d => c.1 < d.1)) : Memory.read (Memory.write m a v) a = v := by
  induction m with
  | nil =>
    by_cases hv : v = resetByte a <;> simp [Memory.write, Memory.read, hv]
  | cons c rest ih =>
    obtain ⟨b, u⟩ := c
    have hrest := (List.pairwise_cons.mp h).2
    have hlt := (List.pairwise_cons.mp h).1
    simp only [Memory.write]
    split
    · simpa [Memory.read, show b ≠ a by omega] using ih hrest
    · split
      · split
        · rename_i hv
          rw [hv]
          exact Memory.read_of_unlisted fun d hd => by have := hlt d hd; simp at this; omega
        · simp [Memory.read]
      · split
        · rename_i hv
          rw [hv]
          apply Memory.read_of_unlisted
          intro d hd
          rcases List.mem_cons.mp hd with rfl | hd
          · assumption
          · have := hlt d hd
            simp at this
            omega
        · simp [Memory.read]

/-- A store leaves every other byte alone. -/
theorem Memory.read_write_other (m : Memory) {a b : Nat} (v : Byte) (h : b ≠ a) :
    Memory.read (Memory.write m a v) b = Memory.read m b := by
  induction m with
  | nil => by_cases hv : v = resetByte a <;> simp [Memory.write, Memory.read, hv, h.symm]
  | cons c rest ih =>
    obtain ⟨d, u⟩ := c
    simp only [Memory.write]
    split
    · simp [Memory.read, ih]
    · split
      · rename_i hda
        subst hda
        split <;> simp [Memory.read, h.symm]
      · split <;> simp [Memory.read, h.symm]

/-- Every listed address after a store was listed before or is the one stored to. -/
theorem Memory.mem_write {m : Memory} {a : Nat} {v : Byte} {c : Host.Cell}
    (h : c ∈ Memory.write m a v) : c ∈ m ∨ (c = (a, v) ∧ v ≠ resetByte a) := by
  induction m with
  | nil =>
    simp only [Memory.write] at h
    split at h
    · simp at h
    · exact .inr ⟨by simpa using h, by assumption⟩
  | cons d rest ih =>
    obtain ⟨b, u⟩ := d
    simp only [Memory.write] at h
    split at h
    · rcases List.mem_cons.mp h with rfl | h
      · simp
      · rcases ih h with h | h
        · exact .inl (by simp [h])
        · exact .inr h
    · split at h
      · split at h
        · exact .inl (by simp [h])
        · rcases List.mem_cons.mp h with rfl | h
          · exact .inr ⟨rfl, by assumption⟩
          · exact .inl (by simp [h])
      · split at h
        · exact .inl h
        · rcases List.mem_cons.mp h with rfl | h
          · exact .inr ⟨rfl, by assumption⟩
          · exact .inl h

theorem Memory.pairwise_write {m : Memory} (a : Nat) (v : Byte)
    (h : m.Pairwise (fun c d => c.1 < d.1)) :
    (Memory.write m a v).Pairwise (fun c d => c.1 < d.1) := by
  induction m with
  | nil => by_cases hv : v = resetByte a <;> simp [Memory.write, hv]
  | cons c rest ih =>
    obtain ⟨b, u⟩ := c
    obtain ⟨hlt, hrest⟩ := List.pairwise_cons.mp h
    simp only [Memory.write]
    split
    · refine List.pairwise_cons.mpr ⟨fun d hd => ?_, ih hrest⟩
      rcases Memory.mem_write hd with hd | ⟨rfl, -⟩
      · exact hlt d hd
      · assumption
    · split
      · rename_i hba
        subst hba
        split
        · exact hrest
        · exact List.pairwise_cons.mpr ⟨hlt, hrest⟩
      · split
        · exact h
        · refine List.pairwise_cons.mpr ⟨fun d hd => ?_, h⟩
          rcases List.mem_cons.mp hd with rfl | hd
          · show a < b; omega
          · have := hlt d hd
            show a < d.1
            simp at this
            omega

/-- A store to an existing address keeps the canonical form. -/
theorem Memory.wf_write {m : Memory} {a : Nat} (v : Byte) (h : m.wf)
    (ha : a < Config.memorySize) : (Memory.write m a v).wf := by
  refine ⟨Memory.pairwise_write a v h.1, fun c hc => ?_⟩
  rcases Memory.mem_write hc with hc | ⟨rfl, hv⟩
  · exact h.2 c hc
  · exact ⟨ha, hv⟩

/-- What `memRead` can answer (20_memory.md R61). -/
theorem memRead_eq_some {a : Nat} {s : State} {v : Byte} :
    memRead a s = some v ↔ a < 4096 ∧ s.memory.read a = v := by
  simp only [memRead]
  split <;> simp_all

theorem memRead_of_lt {a : Nat} (s : State) (h : a < 4096) :
    memRead a s = some (s.memory.read a) := memRead_eq_some.mpr ⟨h, rfl⟩

theorem memRead_of_ge {a : Nat} (s : State) (h : 4096 ≤ a) : memRead a s = none := by
  simp only [memRead]
  exact if_neg (by simp only [Config.memorySize]; omega)

/-- All that `memWrite` can do (20_memory.md R62). -/
theorem memWrite_eq_some {a : Nat} {v : Byte} {s t : State} :
    memWrite a v s = some t ↔
      a < 4096 ∧ t = { s with memory := s.memory.write a v } := by
  simp only [memWrite]
  split <;> simp_all [eq_comm]

theorem memWrite_wf {a : Nat} {v : Byte} {s t : State} (h : memWrite a v s = some t)
    (hs : s.memory.wf) : t.memory.wf := by
  obtain ⟨ha, rfl⟩ := memWrite_eq_some.mp h
  exact Memory.wf_write v hs ha

/-- Storing bytes changes memory alone and keeps its canonical form (20_memory.md R70). -/
theorem writeBytes_some {bytes : List Byte} {a : Nat} {s t : State}
    (h : writeBytes a bytes s = some t) :
    t = { s with memory := t.memory } ∧ (s.memory.wf → t.memory.wf) := by
  induction bytes generalizing a s with
  | nil =>
    cases Option.some.inj h
    exact ⟨rfl, id⟩
  | cons v rest ih =>
    simp only [writeBytes] at h
    split at h
    · rename_i u hu
      obtain ⟨he, hw⟩ := ih h
      obtain ⟨-, rfl⟩ := memWrite_eq_some.mp hu
      exact ⟨by rw [he], fun hs => hw (memWrite_wf hu hs)⟩
    · cases h

/-- What an accepted `LoadRom` leaves (20_memory.md R70): all but memory, and its form. -/
theorem loadRom_some {bytes : List Byte} {s t : State} (h : loadRom bytes s = some t) :
    t = { s with memory := t.memory } ∧ (s.memory.wf → t.memory.wf) := by
  simp only [loadRom] at h
  split at h
  · cases h
  · exact writeBytes_some h

/-- Placing an instruction keeps the canonical form. -/
theorem placeWord_wf (w : Word) {s : State} (h : s.memory.wf) : (placeWord w s).memory.wf := by
  simp only [placeWord]
  split
  · exact h
  · rename_i hp
    simp only [Config.maxFetch] at hp
    refine Memory.wf_write _ (Memory.wf_write _ h ?_) ?_ <;>
      simp only [Config.memorySize] <;> omega

/-! ### Writing many addresses, each with its own value -/

/-- Reading after a value was stored at each address of a list. -/
theorem Memory.read_writeAll (f : Nat → Byte) (as : List Nat) {m : Memory} (b : Nat)
    (h : m.Pairwise (fun c d => c.1 < d.1)) :
    (as.foldl (fun m a => Memory.write m a (f a)) m).read b = if b ∈ as then f b else m.read b := by
  induction as generalizing m with
  | nil => simp
  | cons a rest ih =>
    simp only [List.foldl_cons, ih (Memory.pairwise_write a (f a) h), List.mem_cons]
    by_cases hb : b = a
    · subst hb
      simp [Memory.read_write_same (f b) h]
    · simp [hb, Memory.read_write_other m (f a) hb]

/-- Storing at existing addresses keeps the canonical form. -/
theorem Memory.wf_writeAll (f : Nat → Byte) (as : List Nat) {m : Memory} (h : m.wf)
    (has : ∀ a ∈ as, a < Config.memorySize) :
    Memory.wf (as.foldl (fun m a => Memory.write m a (f a)) m) := by
  induction as generalizing m with
  | nil => exact h
  | cons a rest ih =>
    exact ih (Memory.wf_write (f a) h (has a (List.mem_cons_self ..)))
      (fun b hb => has b (List.mem_cons_of_mem a hb))

/-- Storing reset bytes into memory that lists nothing leaves it listing nothing. -/
theorem Memory.writeAll_resetByte (as : List Nat) :
    as.foldl (fun m a => Memory.write m a (resetByte a)) [] = [] := by
  induction as with
  | nil => rfl
  | cons a rest ih => simpa [Memory.write] using ih

/-- Memory after a `Reset` with the machine's own font lists nothing. -/
theorem fontMemory_config : fontMemory Config.fontBase.val Config.fontBytes = [] := by
  unfold fontMemory
  exact Memory.writeAll_resetByte _

@[simp] theorem resetWith_memory (base : Nat) (bytes : List Byte) :
    (resetWith base bytes).memory = fontMemory base bytes := rfl

/-- Memory after a `Reset` with any font is in canonical form. -/
theorem fontMemory_wf (base : Nat) (bytes : List Byte) : (fontMemory base bytes).wf := by
  unfold fontMemory
  refine Memory.wf_writeAll _ _ ⟨List.Pairwise.nil, fun c hc => by cases hc⟩ fun a ha => ?_
  have h := List.mem_range.mp ha
  simp only [Config.programOrigin] at h
  simp only [Config.memorySize]
  omega

/-- What memory reads as after a `Reset` with any font. -/
theorem fontMemory_read (base : Nat) (bytes : List Byte) (a : Nat) :
    (fontMemory base bytes).read a = fontByte base bytes a := by
  unfold fontMemory
  rw [Memory.read_writeAll _ _ a List.Pairwise.nil]
  split
  · rfl
  · rename_i h
    simp only [List.mem_range, Config.programOrigin] at h
    rw [Memory.read_nil, resetByte_of_ge (by omega)]
    simp [fontByte, show 512 ≤ a by omega]

/-- The reset memory is in canonical form. -/
theorem reset_memory_wf : State.reset.memory.wf := ⟨List.Pairwise.nil, by simp [State.reset]⟩

end Sys2Proof.Machine
end

