-- ==== Sys2Proof/Laws/PerInstr.lean ====
section
/-! SUPPORT. The family `Pattern`, one lemma per instruction: the word of an instruction carries
the fixed bits of its row (spec/30_encoding.md R90, R92). -/

namespace Sys2Proof.Laws

theorem and_addr (f : Nibble) (nnn : Addr) : encodeAddr f nnn &&& 0xF000#16 = f ++ 0#12 := by
  have h : (f ++ nnn : Word) &&& (0xF#4 ++ 0#12 : Word) = (f &&& 0xF#4) ++ (nnn &&& 0#12) :=
    BitVec.and_append
  rw [BitVec.and_zero, show (f &&& 0xF#4) = f from BitVec.and_allOnes] at h
  exact h

theorem and_regImm (f : Nibble) (x : Reg) (kk : Byte) :
    encodeRegImm f x kk &&& 0xF000#16 = f ++ 0#12 := and_addr f (regBits x ++ kk)

theorem and_regReg (f : Nibble) (x y : Reg) (n : Nibble) :
    encodeRegReg f x y n &&& 0xF000#16 = f ++ 0#12 := and_addr f (regBits x ++ (regBits y ++ n))

theorem and_reg (f : Nibble) (x : Reg) (kk : Byte) :
    encodeRegImm f x kk &&& 0xF0FF#16 = f ++ (0#4 ++ kk : Addr) := by
  have h : (f ++ (regBits x ++ kk : Addr) : Word) &&& (0xF#4 ++ (0#4 ++ 0xFF#8 : Addr) : Word)
      = (f &&& 0xF#4) ++ ((regBits x &&& 0#4) ++ (kk &&& 0xFF#8) : Addr) := by
    rw [← BitVec.and_append, ← BitVec.and_append]
  rw [BitVec.and_zero, show (f &&& 0xF#4) = f from BitVec.and_allOnes,
    show (kk &&& 0xFF#8) = kk from BitVec.and_allOnes] at h
  exact h

theorem and_regReg_low (f : Nibble) (x y : Reg) (n : Nibble) :
    encodeRegReg f x y n &&& 0xF00F#16 = f ++ (0#4 ++ (0#4 ++ n : Byte) : Addr) := by
  have h : (f ++ (regBits x ++ (regBits y ++ n : Byte) : Addr) : Word)
        &&& (0xF#4 ++ (0#4 ++ (0#4 ++ 0xF#4 : Byte) : Addr) : Word)
      = (f &&& 0xF#4) ++ ((regBits x &&& 0#4) ++
          ((regBits y &&& 0#4) ++ (n &&& 0xF#4) : Byte) : Addr) := by
    rw [← BitVec.and_append, ← BitVec.and_append, ← BitVec.and_append]
  rw [BitVec.and_zero, BitVec.and_zero, show (f &&& 0xF#4) = f from BitVec.and_allOnes,
    show (n &&& 0xF#4) = n from BitVec.and_allOnes] at h
  exact h

namespace Pattern

/-- The word of `i` has the bits of `matchBits i` where `maskBits i` is set. -/
def Statement (i : Instr) : Prop := encode i &&& maskBits i = matchBits i

theorem cls : Statement (.cls) := rfl

theorem ret : Statement (.ret) := rfl

theorem jp (nnn : Addr) : Statement (.jp nnn) := and_addr _ nnn

theorem call (nnn : Addr) : Statement (.call nnn) := and_addr _ nnn

theorem seImm (x : Reg) (kk : Byte) : Statement (.seImm x kk) := and_regImm _ x kk

theorem sneImm (x : Reg) (kk : Byte) : Statement (.sneImm x kk) := and_regImm _ x kk

theorem seReg (x : Reg) (y : Reg) : Statement (.seReg x y) := and_regReg_low _ x y _

theorem ldImm (x : Reg) (kk : Byte) : Statement (.ldImm x kk) := and_regImm _ x kk

theorem addImm (x : Reg) (kk : Byte) : Statement (.addImm x kk) := and_regImm _ x kk

theorem ldReg (x : Reg) (y : Reg) : Statement (.ldReg x y) := and_regReg_low _ x y _

theorem orReg (x : Reg) (y : Reg) : Statement (.orReg x y) := and_regReg_low _ x y _

theorem andReg (x : Reg) (y : Reg) : Statement (.andReg x y) := and_regReg_low _ x y _

theorem xorReg (x : Reg) (y : Reg) : Statement (.xorReg x y) := and_regReg_low _ x y _

theorem addReg (x : Reg) (y : Reg) : Statement (.addReg x y) := and_regReg_low _ x y _

theorem subReg (x : Reg) (y : Reg) : Statement (.subReg x y) := and_regReg_low _ x y _

theorem shr (x : Reg) (y : Reg) : Statement (.shr x y) := and_regReg_low _ x y _

theorem subnReg (x : Reg) (y : Reg) : Statement (.subnReg x y) := and_regReg_low _ x y _

theorem shl (x : Reg) (y : Reg) : Statement (.shl x y) := and_regReg_low _ x y _

theorem sys (nnn : Addr) : Statement (.sys nnn) := and_addr _ nnn

theorem sneReg (x : Reg) (y : Reg) : Statement (.sneReg x y) := and_regReg_low _ x y _

theorem ldI (nnn : Addr) : Statement (.ldI nnn) := and_addr _ nnn

theorem jpV0 (nnn : Addr) : Statement (.jpV0 nnn) := and_addr _ nnn

theorem rnd (x : Reg) (kk : Byte) : Statement (.rnd x kk) := and_regImm _ x kk

theorem drw (x : Reg) (y : Reg) (n : Nibble) : Statement (.drw x y n) := and_regReg _ x y n

theorem skp (x : Reg) : Statement (.skp x) := and_reg _ x _

theorem sknp (x : Reg) : Statement (.sknp x) := and_reg _ x _

theorem ldVxDt (x : Reg) : Statement (.ldVxDt x) := and_reg _ x _

theorem ldVxK (x : Reg) : Statement (.ldVxK x) := and_reg _ x _

theorem ldDtVx (x : Reg) : Statement (.ldDtVx x) := and_reg _ x _

theorem ldStVx (x : Reg) : Statement (.ldStVx x) := and_reg _ x _

theorem addI (x : Reg) : Statement (.addI x) := and_reg _ x _

theorem ldF (x : Reg) : Statement (.ldF x) := and_reg _ x _

theorem ldB (x : Reg) : Statement (.ldB x) := and_reg _ x _

theorem ldMemVx (x : Reg) : Statement (.ldMemVx x) := and_reg _ x _

theorem ldVxMem (x : Reg) : Statement (.ldVxMem x) := and_reg _ x _

end Pattern

end Sys2Proof.Laws
end

