-- ==== Sys2Proof/Laws/State.lean ====
section
/-! SUPPORT. The fields of State after each named update, one lemma per field per update, so that
no later proof unfolds a record update. -/

namespace Sys2Proof.Machine

/-! ### Register reads -/

theorem State.reg_eq (s : State) (r : Reg) : s.reg r = s.V[r] := rfl

/-- 10_state.md R21: the register written reads as the value, every other as before. -/
theorem State.reg_setReg (s : State) (r q : Reg) (v : Byte) :
    (s.setReg r v).reg q = if q = r then v else s.reg q := by
  simp only [State.reg, State.setReg, Fin.getElem_fin, Vector.getElem_set, Fin.ext_iff]
  by_cases h : r.val = q.val <;> simp [h, eq_comm]

@[simp] theorem State.reg_setReg_self (s : State) (r : Reg) (v : Byte) :
    (s.setReg r v).reg r = v := by simp [State.reg_setReg]

theorem State.reg_setReg_of_ne (s : State) {r q : Reg} (v : Byte) (h : q ≠ r) :
    (s.setReg r v).reg q = s.reg q := by simp [State.reg_setReg, h]

theorem setFlag_eq (s : State) (v : Byte) : setFlag v s = s.setReg flagReg v := rfl

theorem State.setReg_eq (s : State) (r : Reg) (v : Byte) :
    s.setReg r v = { s with V := (s.setReg r v).V } := rfl

/-! ### Fields after `State.setReg` -/

@[simp] theorem State.setReg_memRead (s : State) (r : Reg) (v : Byte) (a : Nat) : memRead a (s.setReg r v) = memRead a s := rfl
@[simp] theorem State.setReg_V (s : State) (r : Reg) (v : Byte) :
    (s.setReg r v).V = s.V.set r v := rfl
@[simp] theorem State.setReg_memory (s : State) (r : Reg) (v : Byte) :
    (s.setReg r v).memory = s.memory := rfl
@[simp] theorem State.setReg_index (s : State) (r : Reg) (v : Byte) :
    (s.setReg r v).index = s.index := rfl
@[simp] theorem State.setReg_pc (s : State) (r : Reg) (v : Byte) : (s.setReg r v).pc = s.pc := rfl
@[simp] theorem State.setReg_stack (s : State) (r : Reg) (v : Byte) :
    (s.setReg r v).stack = s.stack := rfl
@[simp] theorem State.setReg_sp (s : State) (r : Reg) (v : Byte) : (s.setReg r v).sp = s.sp := rfl
@[simp] theorem State.setReg_delayTimer (s : State) (r : Reg) (v : Byte) :
    (s.setReg r v).delayTimer = s.delayTimer := rfl
@[simp] theorem State.setReg_soundTimer (s : State) (r : Reg) (v : Byte) :
    (s.setReg r v).soundTimer = s.soundTimer := rfl
@[simp] theorem State.setReg_keypad (s : State) (r : Reg) (v : Byte) :
    (s.setReg r v).keypad = s.keypad := rfl
@[simp] theorem State.setReg_fb (s : State) (r : Reg) (v : Byte) : (s.setReg r v).fb = s.fb := rfl
@[simp] theorem State.setReg_opcode (s : State) (r : Reg) (v : Byte) :
    (s.setReg r v).opcode = s.opcode := rfl
@[simp] theorem State.setReg_fault (s : State) (r : Reg) (v : Byte) :
    (s.setReg r v).fault = s.fault := rfl

/-! ### Fields after `State.setPc` -/

@[simp] theorem State.setPc_reg (s : State) (w : Word) (q : Reg) : (s.setPc w).reg q = s.reg q := rfl
@[simp] theorem State.setPc_memRead (s : State) (w : Word) (a : Nat) : memRead a (s.setPc w) = memRead a s := rfl
@[simp] theorem State.setPc_V (s : State) (w : Word) : (s.setPc w).V = s.V := rfl
@[simp] theorem State.setPc_memory (s : State) (w : Word) : (s.setPc w).memory = s.memory := rfl
@[simp] theorem State.setPc_index (s : State) (w : Word) : (s.setPc w).index = s.index := rfl
@[simp] theorem State.setPc_pc (s : State) (w : Word) : (s.setPc w).pc = w := rfl
@[simp] theorem State.setPc_stack (s : State) (w : Word) : (s.setPc w).stack = s.stack := rfl
@[simp] theorem State.setPc_sp (s : State) (w : Word) : (s.setPc w).sp = s.sp := rfl
@[simp] theorem State.setPc_delayTimer (s : State) (w : Word) :
    (s.setPc w).delayTimer = s.delayTimer := rfl
@[simp] theorem State.setPc_soundTimer (s : State) (w : Word) :
    (s.setPc w).soundTimer = s.soundTimer := rfl
@[simp] theorem State.setPc_keypad (s : State) (w : Word) : (s.setPc w).keypad = s.keypad := rfl
@[simp] theorem State.setPc_fb (s : State) (w : Word) : (s.setPc w).fb = s.fb := rfl
@[simp] theorem State.setPc_opcode (s : State) (w : Word) : (s.setPc w).opcode = s.opcode := rfl
@[simp] theorem State.setPc_fault (s : State) (w : Word) : (s.setPc w).fault = s.fault := rfl

/-! ### Fields after `setFlag` -/

@[simp] theorem setFlag_memRead (s : State) (v : Byte) (a : Nat) : memRead a (setFlag v s) = memRead a s := rfl
@[simp] theorem setFlag_V (s : State) (v : Byte) : (setFlag v s).V = s.V.set flagReg v := rfl
@[simp] theorem setFlag_memory (s : State) (v : Byte) : (setFlag v s).memory = s.memory := rfl
@[simp] theorem setFlag_index (s : State) (v : Byte) : (setFlag v s).index = s.index := rfl
@[simp] theorem setFlag_pc (s : State) (v : Byte) : (setFlag v s).pc = s.pc := rfl
@[simp] theorem setFlag_stack (s : State) (v : Byte) : (setFlag v s).stack = s.stack := rfl
@[simp] theorem setFlag_sp (s : State) (v : Byte) : (setFlag v s).sp = s.sp := rfl
@[simp] theorem setFlag_delayTimer (s : State) (v : Byte) :
    (setFlag v s).delayTimer = s.delayTimer := rfl
@[simp] theorem setFlag_soundTimer (s : State) (v : Byte) :
    (setFlag v s).soundTimer = s.soundTimer := rfl
@[simp] theorem setFlag_keypad (s : State) (v : Byte) : (setFlag v s).keypad = s.keypad := rfl
@[simp] theorem setFlag_fb (s : State) (v : Byte) : (setFlag v s).fb = s.fb := rfl
@[simp] theorem setFlag_opcode (s : State) (v : Byte) : (setFlag v s).opcode = s.opcode := rfl
@[simp] theorem setFlag_fault (s : State) (v : Byte) : (setFlag v s).fault = s.fault := rfl

/-! ### Fields after `clearFramebuffer` -/

@[simp] theorem clearFramebuffer_reg (s : State) (q : Reg) : (clearFramebuffer s).reg q = s.reg q := rfl
@[simp] theorem clearFramebuffer_memRead (s : State) (a : Nat) : memRead a (clearFramebuffer s) = memRead a s := rfl
@[simp] theorem clearFramebuffer_V (s : State) : (clearFramebuffer s).V = s.V := rfl
@[simp] theorem clearFramebuffer_memory (s : State) : (clearFramebuffer s).memory = s.memory := rfl
@[simp] theorem clearFramebuffer_index (s : State) : (clearFramebuffer s).index = s.index := rfl
@[simp] theorem clearFramebuffer_pc (s : State) : (clearFramebuffer s).pc = s.pc := rfl
@[simp] theorem clearFramebuffer_stack (s : State) : (clearFramebuffer s).stack = s.stack := rfl
@[simp] theorem clearFramebuffer_sp (s : State) : (clearFramebuffer s).sp = s.sp := rfl
@[simp] theorem clearFramebuffer_delayTimer (s : State) :
    (clearFramebuffer s).delayTimer = s.delayTimer := rfl
@[simp] theorem clearFramebuffer_soundTimer (s : State) :
    (clearFramebuffer s).soundTimer = s.soundTimer := rfl
@[simp] theorem clearFramebuffer_keypad (s : State) : (clearFramebuffer s).keypad = s.keypad := rfl
@[simp] theorem clearFramebuffer_fb (s : State) :
    (clearFramebuffer s).fb = Vector.replicate 2048 false := rfl
@[simp] theorem clearFramebuffer_opcode (s : State) : (clearFramebuffer s).opcode = s.opcode := rfl
@[simp] theorem clearFramebuffer_fault (s : State) : (clearFramebuffer s).fault = s.fault := rfl

/-! ### Fields after `takeFault` -/

@[simp] theorem takeFault_reg (s : State) (c : FaultCause) (p : Word) (w : Option Word) (q : Reg) : (takeFault c p w s).reg q = s.reg q := rfl
@[simp] theorem takeFault_memRead (s : State) (c : FaultCause) (p : Word) (w : Option Word) (a : Nat) : memRead a (takeFault c p w s) = memRead a s := rfl
@[simp] theorem takeFault_V (s : State) (c : FaultCause) (p : Word) (w : Option Word) :
    (takeFault c p w s).V = s.V := rfl
@[simp] theorem takeFault_memory (s : State) (c : FaultCause) (p : Word) (w : Option Word) :
    (takeFault c p w s).memory = s.memory := rfl
@[simp] theorem takeFault_index (s : State) (c : FaultCause) (p : Word) (w : Option Word) :
    (takeFault c p w s).index = s.index := rfl
@[simp] theorem takeFault_pc (s : State) (c : FaultCause) (p : Word) (w : Option Word) :
    (takeFault c p w s).pc = s.pc := rfl
@[simp] theorem takeFault_stack (s : State) (c : FaultCause) (p : Word) (w : Option Word) :
    (takeFault c p w s).stack = s.stack := rfl
@[simp] theorem takeFault_sp (s : State) (c : FaultCause) (p : Word) (w : Option Word) :
    (takeFault c p w s).sp = s.sp := rfl
@[simp] theorem takeFault_delayTimer (s : State) (c : FaultCause) (p : Word) (w : Option Word) :
    (takeFault c p w s).delayTimer = s.delayTimer := rfl
@[simp] theorem takeFault_soundTimer (s : State) (c : FaultCause) (p : Word) (w : Option Word) :
    (takeFault c p w s).soundTimer = s.soundTimer := rfl
@[simp] theorem takeFault_keypad (s : State) (c : FaultCause) (p : Word) (w : Option Word) :
    (takeFault c p w s).keypad = s.keypad := rfl
@[simp] theorem takeFault_fb (s : State) (c : FaultCause) (p : Word) (w : Option Word) :
    (takeFault c p w s).fb = s.fb := rfl
@[simp] theorem takeFault_opcode (s : State) (c : FaultCause) (p : Word) (w : Option Word) :
    (takeFault c p w s).opcode = s.opcode := rfl
@[simp] theorem takeFault_fault (s : State) (c : FaultCause) (p : Word) (w : Option Word) :
    (takeFault c p w s).fault = some ⟨c, p, w⟩ := rfl

/-! ### Fields after `beginCycle` -/

@[simp] theorem beginCycle_reg (s : State) (w : Word) (q : Reg) : (beginCycle w s).reg q = s.reg q := rfl
@[simp] theorem beginCycle_memRead (s : State) (w : Word) (a : Nat) : memRead a (beginCycle w s) = memRead a s := rfl
@[simp] theorem beginCycle_V (s : State) (w : Word) : (beginCycle w s).V = s.V := rfl
@[simp] theorem beginCycle_memory (s : State) (w : Word) : (beginCycle w s).memory = s.memory := rfl
@[simp] theorem beginCycle_index (s : State) (w : Word) : (beginCycle w s).index = s.index := rfl
@[simp] theorem beginCycle_pc (s : State) (w : Word) : (beginCycle w s).pc = s.pc + 2 := rfl
@[simp] theorem beginCycle_stack (s : State) (w : Word) : (beginCycle w s).stack = s.stack := rfl
@[simp] theorem beginCycle_sp (s : State) (w : Word) : (beginCycle w s).sp = s.sp := rfl
@[simp] theorem beginCycle_delayTimer (s : State) (w : Word) :
    (beginCycle w s).delayTimer = s.delayTimer := rfl
@[simp] theorem beginCycle_soundTimer (s : State) (w : Word) :
    (beginCycle w s).soundTimer = s.soundTimer := rfl
@[simp] theorem beginCycle_keypad (s : State) (w : Word) : (beginCycle w s).keypad = s.keypad := rfl
@[simp] theorem beginCycle_fb (s : State) (w : Word) : (beginCycle w s).fb = s.fb := rfl
@[simp] theorem beginCycle_opcode (s : State) (w : Word) : (beginCycle w s).opcode = w := rfl
@[simp] theorem beginCycle_fault (s : State) (w : Word) : (beginCycle w s).fault = s.fault := rfl

end Sys2Proof.Machine
end

