-- ==== Sys2Proof/Laws/Step.lean ====
section
/-! SUPPORT. What the shared operations, a meaning and a step can do, said once: provers cite these
lemmas instead of unfolding the operations. -/

namespace Sys2Proof.Machine

/-! ### Shared operations -/

/-- A push onto a stack with a free slot `k` (40_flow.md R113). -/
theorem pushStack_of_lt {s : State} (v : Word) (k : Fin 16) (h : s.sp.val = k.val) :
    pushStack v s = some { s with stack := s.stack.set k v, sp := k.succ } := by
  have hk : s.sp.val < 16 := by omega
  simp only [pushStack, hk, dif_pos]
  congr 2
  · simp only [h]
  · exact Fin.ext (by simp [h])

/-- A push onto a full stack. -/
theorem pushStack_of_full {s : State} (v : Word) (h : s.sp.val = 16) : pushStack v s = none :=
  dif_neg (by omega)

/-- A pop of the entry in slot `k` (40_flow.md R111). -/
theorem popStack_of_pos {s : State} (k : Fin 16) (h : s.sp.val = k.val + 1) :
    popStack s = some (s.stack[k], { s with sp := k.castSucc }) := by
  have hk : 0 < s.sp.val := by omega
  simp only [popStack, hk, dif_pos]
  congr 2
  · simp [h]
  · congr 1
    exact Fin.ext (by simp [h])

/-- A pop of an empty stack. -/
theorem popStack_of_empty {s : State} (h : s.sp.val = 0) : popStack s = none :=
  dif_neg (by omega)

/-- The stack is empty, full, or has a top entry and a free slot: `sp` by cases. -/
theorem sp_cases (s : State) :
    s.sp.val = 0 ∨ s.sp.val = 16 ∨ ∃ k : Fin 16, s.sp.val = k.val ∧ 0 < k.val := by
  by_cases h0 : s.sp.val = 0
  · exact .inl h0
  · by_cases h16 : s.sp.val = 16
    · exact .inr (.inl h16)
    · exact .inr (.inr ⟨⟨s.sp.val, by omega⟩, rfl, by simp; omega⟩)

/-- The record of a raised fault, and that nothing else changes (60_exceptions.md R163, R164). -/
theorem raiseFault_eq (c : FaultCause) (i : Instr) (s : State) :
    raiseFault c i s = .next { s with fault := some ⟨c, s.pc - 2, some (encode i)⟩ } := rfl

theorem skipIf_eq (c : Bool) (s : State) :
    skipIf c s = { s with pc := if c then s.pc + 2 else s.pc } := by cases c <;> rfl

/-- All that `fetchWord` can answer (30_encoding.md R85). -/
theorem fetchWord_eq_some {s : State} {w : Word} : fetchWord s = some w ↔
    s.pc.toNat ≤ 0xFFE ∧
      w = wordOfBytes (s.memory.read s.pc.toNat) (s.memory.read (s.pc.toNat + 1)) := by
  simp only [fetchWord, Config.maxFetch]
  split
  · exact ⟨fun h => (by cases h), fun h => (by omega)⟩
  · rename_i h
    rw [memRead_of_lt s (by omega), memRead_of_lt s (by omega)]
    simp only [Option.some.injEq, eq_comm (b := w)]
    exact ⟨fun e => ⟨by omega, e⟩, fun e => e.2⟩

theorem fetchWord_eq_none {s : State} : fetchWord s = none ↔ 0xFFE < s.pc.toNat := by
  refine ⟨fun h => ?_, fun h => if_pos h⟩
  by_contra hp
  have hw := (fetchWord_eq_some (s := s)).mpr ⟨by omega, rfl⟩
  rw [h] at hw
  cases hw

/-- The pc of a cycle that fetches does not wrap (30_encoding.md R86). -/
theorem advance_toNat {s : State} {w : Word} (h : fetchWord s = some w) :
    (s.pc + 2).toNat = s.pc.toNat + 2 ∧ s.pc.toNat + 2 ≤ 0x1000 := by
  have hp := (fetchWord_eq_some.mp h).1
  constructor
  · simp [BitVec.toNat_add]; omega
  · omega

/-- A handler that completes: its state stands. -/
theorem endCycle_completed {s t : State} (h : t.fault = none) :
    endCycle s (.next t) = .next t := by simp [endCycle, h]

/-- A handler that raises: the writes are discarded and the record is kept (60_exceptions.md
R163). -/
theorem endCycle_raised {s t : State} {r : FaultRecord} (h : t.fault = some r) :
    endCycle s (.next t) = .next { s with fault := some r } := by simp [endCycle, h, takeFault]

/-! ### Meanings -/

/-- What an instruction of the subset does: a completed handler, with the fields it may write, or a
raised stack fault; and every other instruction raises UnimplementedOpcode. -/
theorem exec_cases (i : Instr) (s : State) :
    (i.implemented = true ∧ ∃ V pc sp stack fb, exec i s = .next
      { s with V := V, pc := pc, sp := sp, stack := stack, fb := fb }) ∨
    (i.implemented = true ∧ ∃ c, (c = .stackOverflow ∧ (∃ nnn, i = .call nnn) ∧ s.sp.val = 16 ∨
      c = .stackUnderflow ∧ i = .ret ∧ s.sp.val = 0) ∧ exec i s = raiseFault c i s) ∨
    (i.implemented = false ∧ exec i s = raiseFault .unimplementedOpcode i s) := by
  cases i
  case ret =>
    by_cases h : s.sp.val = 0
    · refine .inr (.inl ⟨rfl, _, .inr ⟨rfl, rfl, h⟩, ?_⟩)
      simp only [exec, execRet, popStack_of_empty h]
    · refine .inl ⟨rfl, s.V, s.stack[s.sp.val - 1], ⟨s.sp.val - 1, by omega⟩, s.stack, s.fb, ?_⟩
      simp only [exec, execRet, popStack, Nat.pos_of_ne_zero h, dif_pos]
      rfl
  case call nnn =>
    by_cases h : s.sp.val = 16
    · refine .inr (.inl ⟨rfl, _, .inl ⟨rfl, ⟨nnn, rfl⟩, h⟩, ?_⟩)
      simp only [exec, execCall, pushStack_of_full _ h]
    · refine .inl ⟨rfl, s.V, addrOperand nnn, ⟨s.sp.val + 1, by omega⟩,
        s.stack.set s.sp.val s.pc (by omega), s.fb, ?_⟩
      simp only [exec, execCall, pushStack, show s.sp.val < 16 by omega, dif_pos]
      rfl
  case seImm x kk =>
    exact .inl ⟨rfl, s.V, _, s.sp, s.stack, s.fb, congrArg Host.Outcome.next (skipIf_eq _ s)⟩
  case sneImm x kk =>
    exact .inl ⟨rfl, s.V, _, s.sp, s.stack, s.fb, congrArg Host.Outcome.next (skipIf_eq _ s)⟩
  case seReg x y =>
    exact .inl ⟨rfl, s.V, _, s.sp, s.stack, s.fb, congrArg Host.Outcome.next (skipIf_eq _ s)⟩
  all_goals first
    | exact .inl ⟨rfl, _, _, _, _, _, rfl⟩
    | exact .inr (.inr ⟨rfl, rfl⟩)

/-- Every meaning answers a next state. -/
theorem exec_answers_next (i : Instr) (s : State) : ∃ t, exec i s = .next t := by
  rcases exec_cases i s with ⟨-, _, _, _, _, _, h⟩ | ⟨-, c, -, h⟩ | ⟨-, h⟩ <;> exact ⟨_, h⟩

/-! ### Steps -/

/-- A halted engine has no step (60_exceptions.md R165). -/
theorem step_halted {s : State} {r : FaultRecord} (h : s.fault = some r) :
    step s = .fault (.halted r) := by simp [step, h]

theorem step_fetch_fault {s : State} (hs : s.Running) (h : fetchWord s = none) :
    step s = .next { s with fault := some ⟨.fetchOutOfRange, s.pc, none⟩ } := by
  simp only [step, show s.fault = none from hs, h]
  rfl

theorem step_decode_fault {s : State} {w : Word} {e : DecodeError} (hs : s.Running)
    (h : fetchWord s = some w) (hd : decodeWord w = .error e) :
    step s = .next { s with fault := some ⟨.unrecognizedOpcode, s.pc, some w⟩ } := by
  simp only [step, show s.fault = none from hs, h, hd]
  rfl

theorem step_decoded {s : State} {w : Word} {i : Instr} (hs : s.Running)
    (h : fetchWord s = some w) (hd : decodeWord w = .ok i) :
    step s = endCycle s (exec i (beginCycle w s)) := by
  simp only [step, show s.fault = none from hs, h, hd]

/-- All that a step answering a next state can have done: a fetch fault, an unrecognized word, a
completed handler, or a fault raised by the decoded instruction. -/
theorem step_cases {s t : State} (h : step s = .next t) : s.Running ∧
    ((fetchWord s = none ∧ t = { s with fault := some ⟨.fetchOutOfRange, s.pc, none⟩ }) ∨
     (∃ w e, fetchWord s = some w ∧ decodeWord w = .error e ∧
        t = { s with fault := some ⟨.unrecognizedOpcode, s.pc, some w⟩ }) ∨
     (∃ w i, fetchWord s = some w ∧ decodeWord w = .ok i ∧
        exec i (beginCycle w s) = .next t ∧ t.Running) ∨
     (∃ w i u r, fetchWord s = some w ∧ decodeWord w = .ok i ∧
        exec i (beginCycle w s) = .next u ∧ u.fault = some r ∧
        t = { s with fault := some r })) := by
  cases hf : s.fault with
  | some r => rw [step_halted hf] at h; cases h
  | none =>
    refine ⟨hf, ?_⟩
    cases hw : fetchWord s with
    | none =>
      rw [step_fetch_fault hf hw] at h
      exact .inl ⟨rfl, (Host.Outcome.next.inj h).symm⟩
    | some w =>
      cases hd : decodeWord w with
      | error e =>
        rw [step_decode_fault hf hw hd] at h
        exact .inr (.inl ⟨w, e, rfl, hd, (Host.Outcome.next.inj h).symm⟩)
      | ok i =>
        rw [step_decoded hf hw hd] at h
        obtain ⟨u, hu⟩ := exec_answers_next i (beginCycle w s)
        rw [hu] at h
        cases hr : u.fault with
        | none =>
          rw [endCycle_completed hr] at h
          cases Host.Outcome.next.inj h
          exact .inr (.inr (.inl ⟨w, i, rfl, hd, hu, hr⟩))
        | some r =>
          rw [endCycle_raised hr] at h
          exact .inr (.inr (.inr ⟨w, i, u, r, rfl, hd, hu, hr, (Host.Outcome.next.inj h).symm⟩))

end Sys2Proof.Machine
end

