-- ==== Sys2Proof/Laws/Run.lean ====
section
/-! SUPPORT. What the tests of spec/70_reset_and_hazards.md R202 say of a state, and that a run of
the host without `Reset` keeps a recorded fault. -/

namespace Sys2Proof.Machine

/-- The word of a jump is its family and its address. -/
theorem eq_encode_jp {w : Word} {nnn : Addr} :
    w = encode (.jp nnn) ↔ fieldF w = 0x1#4 ∧ fieldNNN w = nnn := by
  constructor
  · rintro rfl
    exact ⟨fieldF_encodeAddr _ _, fieldNNN_encodeAddr _ _⟩
  · rintro ⟨hf, rfl⟩
    rw [← encodeAddr_fields w, hf]
    simp [encode]

/-- The test for a jump to itself (R202, case (b)). -/
theorem atSelfJump_iff (s : State) : atSelfJump s = true ↔
    ∃ nnn : Addr, fetchWord s = some (encode (.jp nnn)) ∧ s.pc = nnn.zeroExtend 16 := by
  unfold atSelfJump
  cases hw : fetchWord s with
  | none => simp
  | some w =>
    simp only [Bool.and_eq_true, beq_iff_eq, Option.some.injEq, eq_encode_jp]
    exact ⟨fun h => ⟨_, ⟨h.1, rfl⟩, h.2.symm⟩, by rintro ⟨_, ⟨h, rfl⟩, e⟩; exact ⟨h, e.symm⟩⟩

/-- What `endsHere` says of a state: case (a), case (b), or neither. -/
theorem endsHere_cases (s : State) :
    (∃ f, s.fault = some f ∧ endsHere s = some (.faulted f)) ∨
    (EndsAtSelfJump s ∧ endsHere s = some .selfJump) ∨
    (s.Running ∧ ¬ EndsAtSelfJump s ∧ endsHere s = none) := by
  unfold endsHere EndsAtSelfJump State.Running
  cases hf : s.fault with
  | some f => exact .inl ⟨f, rfl, rfl⟩
  | none =>
    rw [← atSelfJump_iff]
    cases atSelfJump s <;> simp

/-- A running engine has a step. -/
theorem step_answers_next {s : State} (h : s.Running) : ∃ t, step s = .next t := by
  cases hw : fetchWord s with
  | none => exact ⟨_, step_fetch_fault h hw⟩
  | some w =>
    cases hd : decodeWord w with
    | error e => exact ⟨_, step_decode_fault h hw hd⟩
    | ok i =>
      obtain ⟨u, hu⟩ := exec_answers_next i (beginCycle w s)
      rw [step_decoded h hw hd, hu]
      cases hr : u.fault with
      | none => exact ⟨u, endCycle_completed hr⟩
      | some r => exact ⟨_, endCycle_raised hr⟩

/-- A `LoadRom` changes no fault. -/
theorem loadRom_fault {bytes : List Byte} {s t : State} (h : loadRom bytes s = some t) :
    t.fault = s.fault := by
  rw [(loadRom_some h).1]

/-- A host operation that is no `Reset` keeps a recorded fault, and once a `Cycle` has been called
it keeps that too (60_exceptions.md R165, 20_memory.md R73). -/
theorem apply_keeps_fault {op : BlockOp} {b : Block} {r : FaultRecord} (ho : op.isReset = false)
    (hf : b.state.fault = some r) (hp : b.phase = .running) :
    (b.apply op).1.state.fault = some r ∧ (b.apply op).1.phase = .running := by
  cases op with
  | reset base bytes seed => cases ho
  | loadRom bytes => simp [Block.apply, Block.load, hp, hf]
  | cycle => simp [Block.apply, Block.cycle, step_halted hf, hf]
  | timerTick => exact ⟨hf, hp⟩
  | setKey k v => exact ⟨hf, hp⟩
  | readFramebuffer => exact ⟨hf, hp⟩
  | readSound => exact ⟨hf, hp⟩
  | readFault => exact ⟨hf, hp⟩

end Sys2Proof.Machine
end

