-- ==== Sys2Proof/Tests/Slice0.lean ====
section
/-! SUPPORT. Tests: the WellFormed smoke, words written out from the spec's encodings, single
cycles with the end values of spec/95_test_vectors.md (each test names its vector), and a witness
for the hypotheses of every obligation that has some. -/

namespace Sys2Proof.Tests

open Sys2Proof Sys2Proof.Machine Sys2Proof.Spec

/-! ### Helpers -/

/-- The state of a next-state outcome. -/
def nextOf (o : Outcome) : Option State :=
  match o with
  | .next t => some t
  | .fault _ => none
  | .refused _ => none

/-- `State.reset` with these registers, and the word at pc, where the next cycle fetches. -/
def start (w : Word) (regs : List (Reg × Byte)) : State :=
  placeWord w (regs.foldl (fun s p => s.setReg p.1 p.2) State.reset)

/-- The registers `rs` after one cycle from `start w regs`. -/
def regsAfter (w : Word) (regs : List (Reg × Byte)) (rs : List Reg) : Option (List Byte) :=
  (nextOf (step (start w regs))).map (fun t => rs.map t.reg)

/-- The pc after one cycle from `start w regs`. -/
def pcAfterOne (w : Word) (regs : List (Reg × Byte)) : Option Word :=
  (nextOf (step (start w regs))).map State.pc

/-- The fault code, address and word after one cycle from `s`. -/
def faultAfter (s : State) : Option (Option (Nat × Word × Option Word)) :=
  (nextOf (step s)).map (fun t => t.fault.map (fun r => (r.cause.code, r.faultPc, r.word)))

/-- `start w []` with the pc, stack pointer and one stack entry given. -/
def startAt (pc w : Word) (sp : Fin 17) (slot : Fin 16) (entry : Word) : State :=
  placeWord w { State.reset with pc := pc, sp := sp, stack := State.reset.stack.set slot entry }

/-! ### WellFormed smoke: one ill-formed term for each check (30_encoding.md R92) -/

theorem test_wf_refuses_sys_that_spells_cls : Instr.wf (.sys 0x0E0#12) = false := by decide
theorem test_wf_refuses_sys_that_spells_ret : Instr.wf (.sys 0x0EE#12) = false := by decide
theorem test_wf_accepts_other_sys : Instr.wf (.sys 0x1E0#12) = true := by decide

/-! ### Decoding: every constructor by a word written out from 30_encoding.md R90 and R92 -/

theorem test_decode_cls : decodeWord 0b0000_0000_1110_0000#16 = .ok .cls := by rfl
theorem test_decode_ret : decodeWord 0b0000_0000_1110_1110#16 = .ok .ret := by rfl
theorem test_decode_jp : decodeWord 0b0001_1010_1011_1100#16 = .ok (.jp 0xABC#12) := by rfl
theorem test_decode_call : decodeWord 0b0010_0011_0000_0001#16 = .ok (.call 0x301#12) := by rfl
theorem test_decode_se_imm : decodeWord 0b0011_0011_0100_0010#16 = .ok (.seImm 3 0x42#8) := by rfl
theorem test_decode_sne_imm : decodeWord 0b0100_0011_0100_0010#16 = .ok (.sneImm 3 0x42#8) := by
  rfl
theorem test_decode_se_reg : decodeWord 0b0101_0001_0010_0000#16 = .ok (.seReg 1 2) := by rfl
theorem test_decode_ld_imm : decodeWord 0b0110_1010_0100_0010#16 = .ok (.ldImm 10 0x42#8) := by rfl
theorem test_decode_add_imm : decodeWord 0b0111_1111_0000_0001#16 = .ok (.addImm 15 0x01#8) := by
  rfl
theorem test_decode_ld_reg : decodeWord 0b1000_0001_0010_0000#16 = .ok (.ldReg 1 2) := by rfl
theorem test_decode_or : decodeWord 0b1000_0001_0010_0001#16 = .ok (.orReg 1 2) := by rfl
theorem test_decode_and : decodeWord 0b1000_0001_0010_0010#16 = .ok (.andReg 1 2) := by rfl
theorem test_decode_xor : decodeWord 0b1000_0001_0010_0011#16 = .ok (.xorReg 1 2) := by rfl
theorem test_decode_add_reg : decodeWord 0b1000_1111_0000_0100#16 = .ok (.addReg 15 0) := by rfl
theorem test_decode_sub : decodeWord 0b1000_0001_0010_0101#16 = .ok (.subReg 1 2) := by rfl
theorem test_decode_shr : decodeWord 0b1000_0001_0111_0110#16 = .ok (.shr 1 7) := by rfl
theorem test_decode_subn : decodeWord 0b1000_0001_0010_0111#16 = .ok (.subnReg 1 2) := by rfl
theorem test_decode_shl : decodeWord 0b1000_0001_0111_1110#16 = .ok (.shl 1 7) := by rfl
theorem test_decode_sys : decodeWord 0b0000_0000_1110_0001#16 = .ok (.sys 0x0E1#12) := by rfl
theorem test_decode_sne_reg : decodeWord 0b1001_0001_0010_0000#16 = .ok (.sneReg 1 2) := by rfl
theorem test_decode_ld_i : decodeWord 0b1010_0001_0010_0011#16 = .ok (.ldI 0x123#12) := by rfl
theorem test_decode_jp_v0 : decodeWord 0b1011_0001_0010_0011#16 = .ok (.jpV0 0x123#12) := by rfl
theorem test_decode_rnd : decodeWord 0b1100_0001_0010_0011#16 = .ok (.rnd 1 0x23#8) := by rfl
theorem test_decode_drw : decodeWord 0b1101_0001_0010_0011#16 = .ok (.drw 1 2 0x3#4) := by rfl
theorem test_decode_skp : decodeWord 0b1110_0001_1001_1110#16 = .ok (.skp 1) := by rfl
theorem test_decode_sknp : decodeWord 0b1110_0001_1010_0001#16 = .ok (.sknp 1) := by rfl
theorem test_decode_ld_vx_dt : decodeWord 0b1111_0001_0000_0111#16 = .ok (.ldVxDt 1) := by rfl
theorem test_decode_ld_vx_k : decodeWord 0b1111_0001_0000_1010#16 = .ok (.ldVxK 1) := by rfl
theorem test_decode_ld_dt_vx : decodeWord 0b1111_0001_0001_0101#16 = .ok (.ldDtVx 1) := by rfl
theorem test_decode_ld_st_vx : decodeWord 0b1111_0001_0001_1000#16 = .ok (.ldStVx 1) := by rfl
theorem test_decode_add_i : decodeWord 0b1111_0001_0001_1110#16 = .ok (.addI 1) := by rfl
theorem test_decode_ld_f : decodeWord 0b1111_0001_0010_1001#16 = .ok (.ldF 1) := by rfl
theorem test_decode_ld_b : decodeWord 0b1111_0001_0011_0011#16 = .ok (.ldB 1) := by rfl
theorem test_decode_ld_mem_vx : decodeWord 0b1111_0001_0101_0101#16 = .ok (.ldMemVx 1) := by rfl
theorem test_decode_ld_vx_mem : decodeWord 0b1111_0001_0110_0101#16 = .ok (.ldVxMem 1) := by rfl

/-- The words of 95_test_vectors.md V8 to V10, V12, V15 and V17 match no pattern. -/
theorem test_decode_refuses_unrecognized :
    [0x5121#16, 0x8008#16, 0x800F#16, 0x9121#16, 0xE100#16, 0xFFFF#16].all
      (fun w => decodeWord w == .error (.unrecognized w)) = true := by decide

theorem test_decode_needs_two_bytes : decodeBytes [0x60#8] = .error .truncated := by rfl
theorem test_decode_takes_two_bytes :
    decodeBytes [0x60#8, 0x0A#8, 0x70#8] = .ok (.ldImm 0 0x0A#8, [0x70#8]) := by rfl
theorem test_table_word : decodeTableWord 16 0x8F04 = some (.addReg 15 0) := by rfl
theorem test_table_word_refused : decodeTableWord 16 0x5121 = none := by rfl

/-! ### One cycle: fetch and faults (95_test_vectors.md 2.1) -/

/-- V1: the last fetch, at 0xFFE. -/
theorem test_v1_fetch_at_top :
    (nextOf (step (startAt 0x0FFE#16 0x6012#16 0 0 0))).map (fun t => (t.reg 0, t.pc)) =
      some (0x12#8, 0x1000#16) := by decide

/-- V2 and V3: no fetch beyond 0xFFE. -/
theorem test_v2_fetch_above_memory :
    faultAfter { State.reset with pc := 0x1000#16 } = some (some (1, 0x1000#16, none)) := by decide
theorem test_v3_fetch_across_the_end :
    faultAfter { State.reset with pc := 0x0FFF#16 } = some (some (1, 0x0FFF#16, none)) := by decide

/-- V4: an odd pc. -/
theorem test_v4_odd_pc :
    (nextOf (step (startAt 0x0201#16 0x6107#16 0 0 0))).map (fun t => (t.reg 1, t.pc)) =
      some (0x07#8, 0x0203#16) := by decide

/-- V8: an unrecognized word. -/
theorem test_v8_unrecognized :
    faultAfter (start 0x5121#16 []) = some (some (2, 0x0200#16, some 0x5121#16)) := by decide

/-- V18: a halted engine has no step. -/
theorem test_v18_halted :
    step { State.reset with fault := some ⟨.unrecognizedOpcode, 0x0200#16, some 0x5121#16⟩ } =
      .fault (.halted ⟨.unrecognizedOpcode, 0x0200#16, some 0x5121#16⟩) := by rfl

/-- V20: `opcode` after a cycle, and after a faulting one. -/
theorem test_v20_opcode :
    (nextOf (step (start 0x6A5B#16 []))).map State.opcode = some 0x6A5B#16 := by decide
theorem test_v20_opcode_kept_by_fault :
    (nextOf (step { start 0x5121#16 [] with opcode := 0x6A5B#16 })).map State.opcode =
      some 0x6A5B#16 := by decide

/-- The hook that stands for loading a program, from reset. -/
theorem test_with_fetch_word_runs_it :
    (nextOf (step (State.reset.withFetchWord 16 0x600A))).map (fun t => (t.reg 0, t.pc)) =
      some (0x0A#8, 0x0202#16) := by decide

/-! ### One cycle: the words outside the subset raise fault 3 (30_encoding.md R92) -/

theorem test_v6_sys :
    faultAfter (start 0x00E1#16 []) = some (some (3, 0x0200#16, some 0x00E1#16)) := by decide
theorem test_v7_sys_is_not_cls :
    faultAfter (start 0x01E0#16 []) = some (some (3, 0x0200#16, some 0x01E0#16)) := by decide
theorem test_v11_sne_reg :
    faultAfter (start 0x9120#16 []) = some (some (3, 0x0200#16, some 0x9120#16)) := by decide
theorem test_v13_ld_i :
    faultAfter (start 0xA123#16 []) = some (some (3, 0x0200#16, some 0xA123#16)) := by decide

/-- The other words outside the subset, V14 and V16 among them. -/
theorem test_unimplemented_words :
    [0xB123#16, 0xC123#16, 0xD123#16, 0xE19E#16, 0xE1A1#16, 0xF107#16, 0xF10A#16, 0xF115#16,
      0xF118#16, 0xF11E#16, 0xF129#16, 0xF133#16, 0xF155#16, 0xF165#16].all
      (fun w => faultAfter (start w []) == some (some (3, 0x0200#16, some w))) = true := by decide

/-! ### One cycle: control transfer (95_test_vectors.md 2.2) -/

/-- F1: JP. -/
theorem test_f1_jp : pcAfterOne 0x1ABC#16 [] = some 0x0ABC#16 := by decide

/-- F3: JP to itself. -/
theorem test_f3_jp_to_itself : pcAfterOne 0x1200#16 [] = some 0x0200#16 := by decide

/-- F6: CALL with one free slot. -/
theorem test_f6_call :
    (nextOf (step (startAt 0x0400#16 0x2ABC#16 15 0 0))).map
      (fun t => (t.stack[15], t.sp, t.pc)) = some (0x0402#16, 16, 0x0ABC#16) := by decide

/-- F7: CALL with a full stack. -/
theorem test_f7_call_overflow :
    faultAfter (startAt 0x0400#16 0x2ABC#16 16 0 0) =
      some (some (4, 0x0400#16, some 0x2ABC#16)) := by decide

/-- F8: RET. -/
theorem test_f8_ret :
    (nextOf (step (startAt 0x0300#16 0x00EE#16 1 0 0x0202#16))).map
      (fun t => (t.stack[0], t.sp, t.pc)) = some (0x0202#16, 0, 0x0202#16) := by decide

/-- F9: RET with an empty stack. -/
theorem test_f9_ret_underflow :
    faultAfter (startAt 0x0300#16 0x00EE#16 0 0 0) =
      some (some (5, 0x0300#16, some 0x00EE#16)) := by decide

/-- F11: CLS, from a framebuffer with cells on. -/
theorem test_f11_cls :
    (nextOf (exec .cls { State.reset with fb := Vector.replicate 2048 true })).map State.fb =
      some (Vector.replicate 2048 false) := by rfl

/-! ### One cycle: skips (95_test_vectors.md 2.3) -/

theorem test_k1_se_imm_taken : pcAfterOne 0x3342#16 [(3, 0x42#8)] = some 0x0204#16 := by decide
theorem test_k2_se_imm : pcAfterOne 0x3342#16 [(3, 0x41#8)] = some 0x0202#16 := by decide
theorem test_k3_sne_imm : pcAfterOne 0x4342#16 [(3, 0x42#8)] = some 0x0202#16 := by decide
theorem test_k4_sne_imm_taken : pcAfterOne 0x4342#16 [(3, 0x41#8)] = some 0x0204#16 := by decide
theorem test_k5_se_reg_taken :
    pcAfterOne 0x5120#16 [(1, 0x07#8), (2, 0x07#8)] = some 0x0204#16 := by decide
theorem test_k6_se_reg :
    pcAfterOne 0x5120#16 [(1, 0x07#8), (2, 0x08#8)] = some 0x0202#16 := by decide

/-- K10: the taken skip at the last fetch address. -/
theorem test_k10_skip_at_top :
    (nextOf (step (startAt 0x0FFE#16 0x3000#16 0 0 0))).map State.pc = some 0x1002#16 := by decide

/-! ### One cycle: register instructions (95_test_vectors.md 1.1, 2.4, 2.5) -/

theorem test_i1_ld_imm : regsAfter 0x6A42#16 [] [10] = some [0x42#8] := by decide
theorem test_i4_add_imm_no_flag :
    regsAfter 0x70FF#16 [(0, 0x01#8), (15, 0xAA#8)] [0, 15] = some [0x00#8, 0xAA#8] := by decide
theorem test_i5_add_imm_v15 : regsAfter 0x7F01#16 [(15, 0xFF#8)] [15] = some [0x00#8] := by decide
theorem test_a1_ld_reg : regsAfter 0x8120#16 [(2, 0x9C#8)] [1, 2] = some [0x9C#8, 0x9C#8] := by
  decide
theorem test_a3_or :
    regsAfter 0x8121#16 [(1, 0xF0#8), (2, 0x3C#8), (15, 0x55#8)] [1, 15] =
      some [0xFC#8, 0x55#8] := by decide
theorem test_a4_and :
    regsAfter 0x8122#16 [(1, 0xF0#8), (2, 0x3C#8), (15, 0x55#8)] [1, 15] =
      some [0x30#8, 0x55#8] := by decide
theorem test_a5_xor :
    regsAfter 0x8123#16 [(1, 0xF0#8), (2, 0x3C#8), (15, 0x55#8)] [1, 15] =
      some [0xCC#8, 0x55#8] := by decide

/-- S2, the source's own scenario. -/
theorem test_s2_add_v15 :
    regsAfter 0x8F04#16 [(15, 0x37#8), (0, 0xFF#8)] [15] = some [0x36#8] := by decide
theorem test_a10_add_takes_sum_first :
    regsAfter 0x81F4#16 [(1, 0x10#8), (15, 0xF5#8)] [1, 15] = some [0x05#8, 0x01#8] := by decide
theorem test_a15_sub_strict :
    regsAfter 0x8125#16 [(1, 0x07#8), (2, 0x07#8), (15, 0x55#8)] [1, 15] =
      some [0x00#8, 0x00#8] := by decide
theorem test_a17_sub_y15 :
    regsAfter 0x81F5#16 [(1, 0x05#8), (15, 0x03#8)] [1, 15] = some [0x04#8, 0x01#8] := by decide
theorem test_a22_shr_ignores_y :
    regsAfter 0x8176#16 [(1, 0x05#8), (7, 0xAA#8)] [1, 15, 7] =
      some [0x02#8, 0x01#8, 0xAA#8] := by decide
theorem test_a23_shr_v15 : regsAfter 0x8F06#16 [(15, 0x05#8)] [15] = some [0x00#8] := by decide
theorem test_a25_subn :
    regsAfter 0x8127#16 [(1, 0x05#8), (2, 0x03#8)] [1, 15] = some [0xFE#8, 0x00#8] := by decide
theorem test_a28_subn_y15 :
    regsAfter 0x81F7#16 [(1, 0x03#8), (15, 0x05#8)] [1, 15] = some [0xFE#8, 0x01#8] := by decide
theorem test_a29_shl :
    regsAfter 0x810E#16 [(1, 0x81#8)] [1, 15] = some [0x02#8, 0x01#8] := by decide
theorem test_a32_shl_v15 : regsAfter 0x8F0E#16 [(15, 0x81#8)] [15] = some [0x02#8] := by decide

/-! ### The end of a run (70_reset_and_hazards.md R202): programs of one cycle at most -/

/-- How `runProgram` ended: whether at a jump to itself, at the count, or at a fault of this code,
and after how many cycles. -/
def endOf (rom : List Byte) (count : Nat) : Option (Bool × Bool × Option Nat × Nat) :=
  (runProgram rom count).map (fun r =>
    (r.cause == .selfJump, r.cause == .countReached, r.state.fault.map (fun f => f.cause.code),
      r.cycles))

/-- (a): with no program the first cycle faults (20_memory.md R72). -/
theorem test_run_ends_at_fault : endOf [] 2 = some (false, false, some 3, 1) := by decide

/-- (b): the word at 0x200 is JP 0x200 (F3), before any cycle. -/
theorem test_run_ends_at_self_jump :
    endOf [0x12#8, 0x00#8] 2 = some (true, false, none, 0) := by decide

/-- (c): S1's first instruction, with a named count of one cycle. -/
theorem test_run_ends_at_count :
    endOf [0x60#8, 0x0A#8, 0x70#8, 0x05#8] 1 = some (false, true, none, 1) := by decide

/-! ### Host operations (95_test_vectors.md 2.6) and the assembler (30_encoding.md R95) -/

/-- The bytes of S1 land at 0x200 in order. -/
theorem test_s1_load_rom :
    (loadRom [0x60#8, 0x0A#8, 0x70#8, 0x05#8] State.reset).map State.memory =
      some [(0x200, 0x60#8), (0x201, 0x0A#8), (0x202, 0x70#8), (0x203, 0x05#8)] := by decide

/-- Storing what an unlisted byte reads as removes the entry: equal memories are equal lists. -/
theorem test_write_reset_byte_removes :
    (loadRom [0x00#8, 0x0A#8, 0x00#8] State.reset).map State.memory =
      some [(0x201, 0x0A#8)] := by decide

/-- H3: no load after a cycle. -/
theorem test_h3_load_after_cycle :
    (Block.apply (.loadRom [0x60#8]) { state := State.reset, phase := .running }).2 =
      .loadRefused := by rfl

/-- An oversized ROM after a cycle: the model looks at the call's time first (log entry 8). -/
theorem test_late_oversized_load :
    (Block.apply (.loadRom (List.replicate 0xE01 0x60#8))
      { state := State.reset, phase := .running }).2 = .loadRefused := by rfl

/-- H4 and H5: the timers. -/
theorem test_h4_tick : (tickTimer 2, tickTimer 1, tickTimer 0) = (1#8, 0#8, 0#8) := by decide

/-- H6: the sound test. -/
theorem test_h6_read_sound :
    (readSound { State.reset with soundTimer := 1 }, readSound State.reset) = (true, false) := by
  decide

/-- H7: a key. -/
theorem test_h7_set_key : (setKey 5 true State.reset).keypad[5] = true := by decide

/-- The source's own spellings (30_encoding.md R95, 95_test_vectors.md S1, S2), and SHR. -/
theorem test_disassemble_ld : disassemble (.ldImm 0 0x0A#8) = some "LD V0,0x0A" := by decide
theorem test_disassemble_add : disassemble (.addReg 15 0) = some "ADD V15,V0" := by decide
theorem test_disassemble_shr : disassemble (.shr 1 7) = some "SHR V1" := by decide
theorem test_spells_with_space : spells (dropCommaSpaces false "ADD V15, V0".toList) 0x8F04#16 := by
  decide

/-! ### Witnesses: for every obligation with hypotheses, a state and operands that meet them all,
and one for each clause at the ends of its range -/

/-- A next state with a property, found by running the machine. -/
theorem next_such {o : Outcome} (P : State → Prop) [DecidablePred P]
    (h : (nextOf o).any (fun t => decide (P t)) = true) : ∃ t, o = .next t ∧ P t := by
  cases o with
  | next t => exact ⟨t, rfl, by simpa [nextOf] using h⟩
  | fault f => cases h
  | refused r => cases h

/-- A fault record for the witnesses that need a halted state. -/
def someRecord : FaultRecord := ⟨.unrecognizedOpcode, 0x0200#16, some 0x5121#16⟩

theorem witness_RegistersReadAsLastWritten : (0 : Reg) ≠ 15 ∧ (15 : Reg) ≠ 0 := by decide

theorem witness_ResetLeavesEveryFieldAsStated :
    (0x000 ≤ 0xFFF ∧ 0xFFF ≤ 0xFFF) ∧ (0xFFF < 0x1000 : Prop) := by decide

theorem witness_HostResetReplacesTheState :
    0x000 + (List.replicate 0x200 0xF0#8).length ≤ 0x200 ∧
    0x1FF + [0xF0#8].length ≤ 0x200 ∧ 0x200 + ([] : List Byte).length ≤ 0x200 := by
  simp only [List.length_replicate]; decide

theorem witness_FetchIsBigEndian :
    let s := startAt 0x0FFE#16 0x6012#16 0 0 0
    s.pc.toNat ≤ 0xFFE ∧ memRead s.pc.toNat s = some 0x60#8 ∧
      memRead (s.pc.toNat + 1) s = some 0x12#8 := by decide

theorem witness_FetchBeyondMemoryFaults :
    State.Running { State.reset with pc := 0x0FFE#16 } ∧
    State.Running { State.reset with pc := 0x0FFF#16 } ∧
    (0x0FFE#16).toNat ≤ 0xFFE ∧ 0xFFE < (0x0FFF#16).toNat := by decide

theorem witness_MemoryReadsLastByteWritten :
    State.reset.memory.wf ∧ 0xFFF ≤ 0xFFF ∧ (0x200 : Nat) ≠ 0xFFF ∧ 0xFFF < 0x1000 ∧
    (∃ t, exec (.ldImm 0 0x01#8) State.reset = .next t) ∧
    (∀ bytes, BlockOp.timerTick ≠ .loadRom bytes) ∧ BlockOp.timerTick.isReset = false :=
  ⟨by decide, by decide, by decide, by decide, ⟨_, rfl⟩, fun _ => nofun, rfl⟩

theorem witness_LoadRomCopiesVerbatim :
    State.reset.memory.wf ∧ (List.replicate 0xE00 0x60#8).length ≤ 0xE00 ∧
    0xE00 < (List.replicate 0xE01 0x60#8).length ∧
    0xDFF < (List.replicate 0xE00 0x60#8).length ∧ (0x1FF < 0x200 : Prop) ∧
    0x200 + (List.replicate 0xE00 0x60#8).length ≤ 0x1000 := by
  simp only [List.length_replicate]; decide

theorem witness_OversizedRomIsRefused :
    0xE00 < (List.replicate 0xE01 0x60#8).length ∧ Block.reset.phase = .fresh := by
  simp only [List.length_replicate]; decide

theorem witness_LoadRomIsRefusedAfterFirstCycle :
    ∀ op ∈ [BlockOp.cycle, .timerTick, .loadRom [0x60#8], .setKey 5 true],
      op.isReset = false := by decide

theorem witness_DecodeOfEncodeIsTheInstruction :
    Instr.wf (.sys 0x0E1#12) = true ∧ Instr.wf (.drw 15 0 0xF#4) = true := by decide

theorem witness_EncodeOfDecodeIsTheWord : decodeWord 0x8F1E#16 = .ok (.shl 15 1) := by rfl

theorem witness_DispatchAgreesWithPatternTable :
    (decodeWord 0x8F1E#16 = .ok (.shl 15 1) ∧ Instr.implemented (.shl 15 1) = true) ∧
    0x8F1E#16 &&& 0xF00F#16 = 0x800E#16 := by exact ⟨⟨rfl, rfl⟩, by decide⟩

theorem witness_UnrecognizedWordsAreTheListedOnes :
    unrecognized 0x5121#16 ∧ unrecognized 0x800F#16 ∧ unrecognized 0x912F#16 ∧
    unrecognized 0xE19F#16 ∧ unrecognized 0xFFFF#16 ∧ ¬ unrecognized 0x0000#16 := by
  unfold unrecognized
  exact ⟨by decide, by decide, by decide, by decide, by decide, by decide⟩

theorem witness_StepRunsTheDecodedInstruction_completes :
    let s := startAt 0x0FFE#16 0x6012#16 0 0 0
    s.Running ∧ fetchWord s = some 0x6012#16 ∧ decodeWord 0x6012#16 = .ok (.ldImm 0 0x12#8) ∧
      ∃ t, exec (.ldImm 0 0x12#8) { s with pc := s.pc + 2, opcode := 0x6012#16 } = .next t ∧
        t.fault = none :=
  ⟨rfl, by decide, rfl, _, rfl, rfl⟩

theorem witness_StepRunsTheDecodedInstruction_raises :
    let s := start 0xA123#16 []
    s.Running ∧ fetchWord s = some 0xA123#16 ∧ decodeWord 0xA123#16 = .ok (.ldI 0x123#12) ∧
      ∃ t r, exec (.ldI 0x123#12) { s with pc := s.pc + 2, opcode := 0xA123#16 } = .next t ∧
        t.fault = some r :=
  ⟨rfl, by decide, rfl, _, _, rfl, rfl⟩

theorem witness_OnlyARecordedFaultStopsTheEngine :
    ({ State.reset with fault := some someRecord } : State).fault = some someRecord ∧
    State.reset.fault = none := by exact ⟨rfl, rfl⟩

theorem witness_FaultsArePrecise :
    (start 0x5121#16 []).Running ∧ ∃ t, step (start 0x5121#16 []) = .next t ∧
      t.fault = some ⟨.unrecognizedOpcode, 0x0200#16, some 0x5121#16⟩ :=
  ⟨rfl, next_such _ (by decide)⟩

theorem witness_FaultsArePrecise_no_word :
    State.Running { State.reset with pc := 0x0FFF#16 } ∧
      ∃ t, step { State.reset with pc := 0x0FFF#16 } = .next t ∧
        t.fault = some ⟨.fetchOutOfRange, 0x0FFF#16, none⟩ :=
  ⟨rfl, next_such _ (by decide)⟩

theorem witness_EveryCycleRaisesExactlyTheExpectedFault :
    (start 0x00EE#16 []).Running ∧ ∃ t, step (start 0x00EE#16 []) = .next t ∧ True :=
  ⟨rfl, next_such _ (by decide)⟩

theorem witness_RetPopsTheReturnAddress :
    (1 : Fin 17).val = (0 : Fin 16).val + 1 ∧ (16 : Fin 17).val = (15 : Fin 16).val + 1 ∧
    State.reset.sp.val = 0 := by decide

theorem witness_CallPushesTheReturnAddress :
    State.reset.sp.val = (0 : Fin 16).val ∧ (15 : Fin 17).val = (15 : Fin 16).val ∧
    (startAt 0x0400#16 0x2ABC#16 16 0 0).sp.val = 16 := by decide

/-- The CALL fills the last slot, and the RET stands at its target. -/
theorem witness_CallThenRetReturns :
    let s := startAt 0x0400#16 0x2ABC#16 15 0 0
    s.Running ∧ s.sp.val < 16 ∧ fetchWord s = some (encode (.call 0xABC#12)) ∧
    ∃ t, step s = .next t ∧
      ((placeWord 0x00EE#16 t).Running ∧ (placeWord 0x00EE#16 t).sp = t.sp ∧
        (placeWord 0x00EE#16 t).stack[15] = t.stack[15] ∧
        fetchWord (placeWord 0x00EE#16 t) = some (encode .ret)) :=
  ⟨rfl, by decide, by decide, next_such _ (by decide)⟩

theorem witness_SelfJumpLoopsForever : EndsAtSelfJump (start 0x1200#16 []) :=
  ⟨rfl, 0x200#12, by decide, by decide⟩

/-- A taken skip at the last fetch address, under two memories that differ elsewhere. -/
theorem witness_SkipAdvancesByFourOrTwo :
    let s := startAt 0x0FFE#16 0x3000#16 0 0 0
    s.Running ∧ fetchWord s = some 0x3000#16 ∧
    fetchWord { s with memory := s.memory.write 0x300 0xFF#8 } = some 0x3000#16 ∧
    decodeWord 0x3000#16 = .ok (.seImm 0 0x00#8) ∧ skipCondition (.seImm 0 0x00#8) s = some true :=
  ⟨rfl, by decide, by decide, rfl, by decide⟩

theorem witness_SkipAdvancesByFourOrTwo_not_taken :
    let s := start 0x4000#16 []
    s.Running ∧ fetchWord s = some 0x4000#16 ∧
    fetchWord { s with memory := s.memory.write 0x202 0xFF#8 } = some 0x4000#16 ∧
    decodeWord 0x4000#16 = .ok (.sneImm 0 0x00#8) ∧
    skipCondition (.sneImm 0 0x00#8) s = some false :=
  ⟨rfl, by decide, by decide, rfl, by decide⟩

theorem witness_LoadImmediateSetsTheRegister :
    (startAt 0x0FFE#16 0x6FFF#16 0 0 0).Running ∧
    fetchWord (startAt 0x0FFE#16 0x6FFF#16 0 0 0) = some (encode (.ldImm 15 0xFF#8)) :=
  ⟨rfl, by decide⟩

theorem witness_AddImmediateWrapsWithoutFlag :
    (15 : Reg) ≠ 0 ∧ (startAt 0x0FFE#16 0x70FF#16 0 0 0).Running ∧
    fetchWord (startAt 0x0FFE#16 0x70FF#16 0 0 0) = some (encode (.addImm 0 0xFF#8)) :=
  ⟨by decide, rfl, by decide⟩

theorem witness_TextSpellsTheWord :
    disassemble (.shl 15 15) = some "SHL V15" ∧
    ∀ x y : Reg, Instr.addReg 15 0 ≠ .shr x y ∧ Instr.addReg 15 0 ≠ .shl x y :=
  ⟨by decide, fun _ _ => ⟨nofun, nofun⟩⟩

theorem witness_CopyAndLogicWriteOnlyVx : ∃ t, exec (.xorReg 15 0) State.reset = .next t :=
  ⟨_, rfl⟩

/-- ADD's clauses: X = 14 with Y = 15, and a register that is neither X nor 15. -/
theorem witness_AddTakesItsSumFirst : (14 : Reg) ≠ 15 ∧ (0 : Reg) ≠ 14 ∧ (0 : Reg) ≠ 15 := by
  decide

/-- SUB's clauses, each by its (X, Y): (14, 0), (15, 14), (14, 15), (15, 15), (14, 14). -/
theorem witness_SubSubtractsAfterTheFlag :
    ((1 : Reg) ≠ 14 ∧ (1 : Reg) ≠ 15) ∧ ((14 : Reg) ≠ 15 ∧ (0 : Reg) ≠ 15) ∧
    ((15 : Reg) = 15 ∧ (14 : Reg) ≠ 15) ∧ ((14 : Reg) ≠ 15 ∧ (15 : Reg) = 15) ∧
    ((15 : Reg) = 15 ∧ (15 : Reg) = 15) ∧ ((14 : Reg) = 14 ∧ (14 : Reg) ≠ 15) := by decide

/-- At (14, 14) the clauses for X = Y and for X, Y other than 15 both apply, and agree: the
operand is not greater than itself, and the difference is 0. -/
theorem witness_SubSubtractsAfterTheFlag_clauses_agree :
    regsAfter 0x8EE5#16 [(14, 0x07#8), (15, 0x55#8)] [14, 15] = some [0x00#8, 0x00#8] := by decide

/-- SUBN's clauses, by the same pairs. -/
theorem witness_SubnSubtractsAfterTheFlag :
    ((1 : Reg) ≠ 14 ∧ (1 : Reg) ≠ 15) ∧ ((14 : Reg) ≠ 15 ∧ (0 : Reg) ≠ 15) ∧
    ((15 : Reg) = 15 ∧ (14 : Reg) ≠ 15) ∧ ((14 : Reg) ≠ 15 ∧ (15 : Reg) = 15) ∧
    ((15 : Reg) = 15 ∧ (15 : Reg) = 15) ∧ ((14 : Reg) = 14 ∧ (14 : Reg) ≠ 15) := by decide

/-- The clauses of SHR and SHL: X = 14, X = 15, and a register that is neither. -/
theorem witness_ShrShiftsAfterTheFlag :
    (14 : Reg) ≠ 15 ∧ (15 : Reg) = 15 ∧ ((0 : Reg) ≠ 14 ∧ (0 : Reg) ≠ 15) := by decide
theorem witness_ShlShiftsAfterTheFlag :
    (14 : Reg) ≠ 15 ∧ (15 : Reg) = 15 ∧ ((0 : Reg) ≠ 14 ∧ (0 : Reg) ≠ 15) := by decide

theorem witness_FlagIsWrittenBeforeVx :
    ¬ writesReg (.xorReg 1 15) 15 ∧
      ∃ t, exec (.xorReg 1 15) State.reset = .next t ∧ True :=
  ⟨by unfold writesReg; decide, _, rfl, trivial⟩

theorem witness_RegisterInstructionsFrame :
    Instr.shl 1 15 ∈ ([.ldImm 1 0#8, .addImm 1 0#8, .ldReg 1 15, .orReg 1 15, .andReg 1 15,
      .xorReg 1 15, .addReg 1 15, .subReg 1 15, .shr 1 15, .subnReg 1 15, .shl 1 15] :
      List Instr) ∧ (2 : Reg) ≠ 1 ∧ (2 : Reg) ≠ 15 ∧
      ∃ t, exec (.shl 1 15) State.reset = .next t :=
  ⟨by decide, by decide, by decide, _, rfl⟩

theorem witness_RegisterInstructionsFrame_without_flag :
    Instr.addImm 1 0#8 ∈ ([.ldImm 1 0#8, .addImm 1 0#8, .ldReg 1 15, .orReg 1 15, .andReg 1 15,
      .xorReg 1 15] : List Instr) ∧ (15 : Reg) ≠ 1 ∧
      ∃ t, exec (.addImm 1 0#8) State.reset = .next t :=
  ⟨by decide, by decide, _, rfl⟩

theorem witness_FlowInstructionsFrame_call :
    Instr.call 0#12 ∈ ([.cls, .ret, .jp 0#12, .call 0#12, .seImm 0 0#8, .sneImm 0 0#8,
      .seReg 0 0] : List Instr) ∧ Instr.call 0#12 ≠ .cls ∧
      (14 : Fin 16).val ≠ (15 : Fin 17).val ∧
      ∃ t, exec (.call 0#12) { State.reset with sp := 15 } = .next t :=
  ⟨by decide, by decide, by decide, _, rfl⟩

theorem witness_FlowInstructionsFrame_ret :
    Instr.ret ∈ ([.cls, .ret, .jp 0#12, .call 0#12, .seImm 0 0#8, .sneImm 0 0#8,
      .seReg 0 0] : List Instr) ∧ Instr.ret ≠ .call 0#12 ∧
      ∃ t, exec .ret { State.reset with sp := 16 } = .next t :=
  ⟨by decide, by decide, _, rfl⟩

theorem witness_FlowInstructionsFrame_cls :
    Instr.cls ∈ ([.cls, .ret, .jp 0#12, .call 0#12, .seImm 0 0#8, .sneImm 0 0#8,
      .seReg 0 0] : List Instr) ∧ Instr.cls ≠ .call 0#12 ∧ Instr.cls ≠ .ret ∧
      ∃ t, exec .cls State.reset = .next t :=
  ⟨by decide, by decide, by decide, _, rfl⟩

theorem witness_UnimplementedInstructionsFrame :
    Instr.implemented (.ldMemVx 15) = false ∧ ∃ t, exec (.ldMemVx 15) State.reset = .next t :=
  ⟨rfl, _, rfl⟩

/-- SUBN V1,V2 from two states that differ in V3 alone, which it neither reads nor writes. -/
theorem witness_InstructionsReadAndWriteTheListedRegisters :
    Instr.implemented (.subnReg 1 2) = true ∧
    (∃ t, exec (.subnReg 1 2) State.reset = .next t) ∧ ¬ writesReg (.subnReg 1 2) 3 ∧
    SameButRegisters State.reset (State.reset.setReg 3 0xFF#8) ∧
    (∀ r, readsReg (.subnReg 1 2) r → (State.reset.setReg 3 0xFF#8).reg r = State.reset.reg r) ∧
    writesReg (.subnReg 1 2) 15 :=
  ⟨rfl, ⟨_, rfl⟩, by unfold writesReg; decide, rfl, by unfold readsReg; decide, .inl rfl⟩

theorem witness_HandlersWriteOnlyTheirOutputs :
    ∃ t, exec (.skp 0) State.reset = .next t ∧ t.fault ≠ State.reset.fault :=
  ⟨_, rfl, by decide⟩

theorem witness_PcAfterEachCycle :
    let s := startAt 0x0300#16 0x00EE#16 16 15 0x0202#16
    s.Running ∧ fetchWord s = some 0x00EE#16 ∧ decodeWord 0x00EE#16 = .ok .ret ∧
      ∃ t, step s = .next t ∧ t.fault = none :=
  ⟨rfl, by decide, rfl, next_such _ (by decide)⟩

theorem witness_PcAfterEachCycle_faulting :
    let s := startAt 0x0300#16 0x00EE#16 0 15 0x0202#16
    s.Running ∧ fetchWord s = some 0x00EE#16 ∧ decodeWord 0x00EE#16 = .ok .ret ∧
      ∃ t, step s = .next t ∧ t.fault ≠ none :=
  ⟨rfl, by decide, rfl, next_such _ (by decide)⟩

theorem witness_OpcodeHoldsTheFetchedWord :
    ((start 0x6A5B#16 []).Running ∧ ∃ t, step (start 0x6A5B#16 []) = .next t ∧ t.fault = none) ∧
    ((start 0x5121#16 []).Running ∧ ∃ t, step (start 0x5121#16 []) = .next t ∧ t.fault ≠ none) :=
  ⟨⟨rfl, next_such _ (by decide)⟩, rfl, next_such _ (by decide)⟩

/-- A state at both ends of the invariant's bounds: a live stack entry of 0x1000, and a step that
takes a skip from 0xFFE to 0x1002. -/
theorem witness_StepKeepsTheInvariant :
    State.Inv (startAt 0x0FFE#16 0x3000#16 16 15 0x1000#16) ∧
      ∃ t, step (startAt 0x0FFE#16 0x3000#16 16 15 0x1000#16) = .next t ∧
        t.pc = 0x1002#16 := by
  refine ⟨⟨by decide, by decide, by decide, rfl, fun c => ?_⟩, next_such _ (by decide)⟩
  simp [startAt, placeWord, State.reset]

theorem witness_ReachableBlocksMeetTheInvariant :
    State.Inv (startAt 0x0FFE#16 0x3000#16 16 15 0x1000#16) ∧
    Block.Reachable (Block.run [.loadRom [0x60#8, 0x0A#8], .cycle, .timerTick] Block.reset) :=
  ⟨witness_StepKeepsTheInvariant.1, _, rfl⟩

theorem witness_DevicesDoNotInfluenceTheCycle :
    ∃ t, step (start 0xE19E#16 []) = .next t ∧ t.fault ≠ none := next_such _ (by decide)

theorem witness_FaultIsReportedUntilReset :
    (∃ t, step (Block.mk (start 0x00EE#16 []) .loaded).state = .next t ∧
      t.fault = some ⟨.stackUnderflow, 0x0200#16, some 0x00EE#16⟩) ∧
    (∀ op ∈ [BlockOp.timerTick, .setKey 15 true, .cycle, .loadRom [0x60#8], .readSound],
      op.isReset = false) ∧ 0x1FF + [0xF0#8].length ≤ 0x200 :=
  ⟨next_such _ (by decide), by decide, by decide⟩

theorem witness_CycleReturnsOkOrTheRecord :
    (Block.mk (start 0x6A5B#16 []) .loaded).state.fault = none ∧
    (∃ t, step (start 0x6A5B#16 []) = .next t ∧ t.fault = none) ∧
    (∃ t, step (start 0x5121#16 []) = .next t ∧ t.fault = some someRecord) :=
  ⟨rfl, next_such _ (by decide), next_such _ (by decide)⟩

/-- A run with no count that ends at once at a jump to itself, and one of one cycle that ends at a
fault, so that a state comes before its end. -/
theorem witness_RunEndsAtTheFirstOfThree :
    (EndsAfter 0 (start 0x1200#16 []) ∧ 0 ≤ 0) ∧
    ((runToEnd 1 (start 0xA123#16 [])).map (fun r => decide (0 < r.cycles)) = some true) ∧
    ((runToEnd 1 (start 0xA123#16 [])).map (fun r => decide (r.cause ≠ .countReached)) =
      some true) :=
  ⟨⟨.inr witness_SelfJumpLoopsForever, Nat.le_refl 0⟩, by decide, by decide⟩

end Sys2Proof.Tests
end

section
/-! SUPPORT. The invariant of Safety.lean: what each named update, a meaning, a step and a host
operation need in order to keep it. -/

namespace Sys2Proof.Machine

/-! ### What the shared operations and the host's operations leave, said once -/

/-- All that a pop can answer (40_flow.md R111). -/
theorem popStack_eq_some {s u : State} {v : Word} : popStack s = some (v, u) ↔
    ∃ k : Fin 16, s.sp.val = k.val + 1 ∧ v = s.stack[k] ∧ u = { s with sp := k.castSucc } := by
  constructor
  · intro h
    have hpos : s.sp.val ≠ 0 := fun h0 => by simp [popStack_of_empty h0] at h
    have hk : s.sp.val = (⟨s.sp.val - 1, by omega⟩ : Fin 16).val + 1 := by
      simp only; omega
    rw [popStack_of_pos _ hk] at h
    obtain ⟨rfl, rfl⟩ := Prod.mk.inj (Option.some.inj h)
    exact ⟨_, hk, rfl, rfl⟩
  · rintro ⟨k, hk, rfl, rfl⟩
    exact popStack_of_pos k hk

/-- All that a push can answer (40_flow.md R113). -/
theorem pushStack_eq_some {s u : State} {v : Word} : pushStack v s = some u ↔
    ∃ k : Fin 16, s.sp.val = k.val ∧ u = { s with stack := s.stack.set k v, sp := k.succ } := by
  constructor
  · intro h
    have hfree : s.sp.val ≠ 16 := fun h16 => by simp [pushStack_of_full v h16] at h
    have hk : s.sp.val = (⟨s.sp.val, by omega⟩ : Fin 16).val := rfl
    rw [pushStack_of_lt v _ hk] at h
    exact ⟨_, hk, (Option.some.inj h).symm⟩
  · rintro ⟨k, hk, rfl⟩
    exact pushStack_of_lt v k hk

/-- What a meaning does to the fields beside `V` and `fault`: nothing, a screen clear, a skip, a
jump, a return or a call. -/
theorem exec_control_cases {i : Instr} {s t : State} (h : exec i s = .next t) :
    (∃ V fault, t = { s with V := V, fault := fault }) ∨
    t = clearFramebuffer s ∨
    (∃ c, t = skipIf c s) ∨
    (∃ nnn, t = s.setPc (addrOperand nnn)) ∨
    (∃ v u, popStack s = some (v, u) ∧ t = u.setPc v) ∨
    (∃ nnn u, pushStack s.pc s = some u ∧ t = u.setPc (addrOperand nnn)) := by
  cases i
  case cls => exact .inr (.inl (Host.Outcome.next.inj h).symm)
  case seImm | sneImm | seReg =>
    exact .inr (.inr (.inl ⟨_, (Host.Outcome.next.inj h).symm⟩))
  case jp nnn => exact .inr (.inr (.inr (.inl ⟨nnn, (Host.Outcome.next.inj h).symm⟩)))
  case ret =>
    simp only [exec, execRet] at h
    cases hp : popStack s with
    | none =>
      rw [hp] at h
      exact .inl ⟨_, _, (Host.Outcome.next.inj h).symm⟩
    | some p =>
      rw [hp] at h
      exact .inr (.inr (.inr (.inr (.inl ⟨p.1, p.2, rfl, (Host.Outcome.next.inj h).symm⟩))))
  case call nnn =>
    simp only [exec, execCall] at h
    cases hp : pushStack s.pc s with
    | none =>
      rw [hp] at h
      exact .inl ⟨_, _, (Host.Outcome.next.inj h).symm⟩
    | some u =>
      rw [hp] at h
      exact .inr (.inr (.inr (.inr (.inr ⟨nnn, u, rfl, (Host.Outcome.next.inj h).symm⟩))))
  all_goals exact .inl ⟨_, _, (Host.Outcome.next.inj h).symm⟩

/-- `Reset` leaves the state alone (a font that does not fit) or replaces it. -/
theorem Block.restart_state_cases (base : Nat) (bytes : List Byte) (b : Block) :
    (b.restart base bytes).1.state = b.state ∨
    (b.restart base bytes).1.state = resetWith base bytes := by
  unfold Block.restart
  split
  · exact .inr rfl
  · exact .inl rfl

/-- `LoadRom` leaves the state alone (a refused call) or loads the bytes. -/
theorem Block.load_state_cases (bytes : List Byte) (b : Block) :
    (b.load bytes).1.state = b.state ∨
    loadRom bytes b.state = some (b.load bytes).1.state := by
  unfold Block.load
  split
  · split
    · exact .inr ‹_›
    · exact .inl rfl
  · exact .inl rfl
  · exact .inl rfl

/-- `Cycle` leaves the state alone (a halted engine) or takes a step. -/
theorem Block.cycle_state_cases (b : Block) :
    b.cycle.1.state = b.state ∨ step b.state = .next b.cycle.1.state := by
  unfold Block.cycle
  split
  · exact .inr ‹_›
  · exact .inl rfl
  · exact .inl rfl

/-- What every operation of the host keeps, every run of the host keeps. -/
theorem Block.run_keeps {P : Block → Prop} (hop : ∀ op b, P b → P (b.apply op).1)
    (ops : List BlockOp) {b : Block} (hb : P b) : P (Block.run ops b) := by
  induction ops generalizing b with
  | nil => exact hb
  | cons op rest ih => exact ih (hop op b hb)

/-! ### The invariant under each update of the state -/

/-- Every field that the invariant does not speak of may take any value. -/
theorem State.Inv.untracked {s : State} (h : s.Inv) (V : Vector Byte 16) (delay sound : Byte)
    (keypad : Vector Bool 16) (opcode : Word) (fault : Option FaultRecord) :
    State.Inv { s with V := V, delayTimer := delay, soundTimer := sound, keypad := keypad,
                       opcode := opcode, fault := fault } :=
  ⟨h.memory_wf, h.pc_le, h.stack_le, h.index_zero, h.fb_off⟩

theorem State.Inv.recordFault {s : State} (h : s.Inv) (fault : Option FaultRecord) :
    State.Inv { s with fault := fault } := h.untracked _ _ _ _ _ fault

theorem State.Inv.withMemory {s : State} (h : s.Inv) {m : Memory} (hm : m.wf) :
    State.Inv { s with memory := m } :=
  ⟨hm, h.pc_le, h.stack_le, h.index_zero, h.fb_off⟩

theorem State.Inv.setPc {s : State} (h : s.Inv) {w : Word} (hw : w.toNat ≤ 0x1002) :
    (s.setPc w).Inv :=
  ⟨h.memory_wf, hw, h.stack_le, h.index_zero, h.fb_off⟩

theorem State.Inv.clearFramebuffer {s : State} (h : s.Inv) :
    (Machine.clearFramebuffer s).Inv :=
  ⟨h.memory_wf, h.pc_le, h.stack_le, h.index_zero, fun c => by simp [Machine.clearFramebuffer]⟩

/-- A popped stack has fewer live entries, and the popped one was live. -/
theorem State.Inv.popStack {s u : State} {v : Word} (h : s.Inv)
    (hp : Machine.popStack s = some (v, u)) : u.Inv ∧ v.toNat ≤ 0x1000 := by
  obtain ⟨k, hk, rfl, rfl⟩ := popStack_eq_some.mp hp
  refine ⟨⟨h.memory_wf, h.pc_le, fun j hj => h.stack_le j ?_, h.index_zero, h.fb_off⟩,
    h.stack_le k (by omega)⟩
  rw [Fin.val_castSucc] at hj
  omega

/-- A push makes one more entry live, the pushed one; the entries below are not written. -/
theorem State.Inv.pushStack {s u : State} {v : Word} (h : s.Inv) (hv : v.toNat ≤ 0x1000)
    (hp : Machine.pushStack v s = some u) : u.Inv := by
  obtain ⟨k, hk, rfl⟩ := pushStack_eq_some.mp hp
  refine ⟨h.memory_wf, h.pc_le, fun j hj => ?_, h.index_zero, h.fb_off⟩
  rw [Fin.val_succ] at hj
  by_cases hjk : j = k
  · subst hjk
    simpa using hv
  · have hval : k.val ≠ j.val := fun e => hjk (Fin.ext e.symm)
    have hkeep : (s.stack.set k v)[j] = s.stack[j] := by
      simp [hval]
    rw [hkeep]
    exact h.stack_le j (by omega)

/-! ### The invariant under a step -/

theorem addrOperand_le (nnn : Addr) : (addrOperand nnn).toNat ≤ 0xFFF := by
  simp only [addrOperand, BitVec.truncate_eq_setWidth, BitVec.toNat_setWidth]
  omega

/-- A skip from an advanced pc stays within 0x1002 (10_state.md R28). -/
theorem State.Inv.skipIf {s : State} (h : s.Inv) (hpc : s.pc.toNat ≤ 0x1000) (c : Bool) :
    (Machine.skipIf c s).Inv := by
  cases c with
  | false => exact h
  | true => exact h.setPc (w := s.pc + 2) (by bv_omega)

/-- The advanced state of a cycle that fetched keeps the invariant. -/
theorem State.Inv.beginCycle {s : State} {w : Word} (h : s.Inv) (hw : fetchWord s = some w) :
    (Machine.beginCycle w s).Inv := by
  obtain ⟨hadd, hle⟩ := advance_toNat hw
  exact (h.setPc (w := s.pc + 2) (by omega)).untracked _ _ _ _ w _

/-- A meaning entered with an advanced pc keeps the invariant: CALL then stores at most 0x1000. -/
theorem exec_keeps_inv {i : Instr} {s t : State} (h : s.Inv) (hpc : s.pc.toNat ≤ 0x1000)
    (he : exec i s = .next t) : t.Inv := by
  have hjump : ∀ nnn, (addrOperand nnn).toNat ≤ 0x1002 := fun nnn =>
    (addrOperand_le nnn).trans (by decide)
  obtain ⟨V, fault, rfl⟩ | rfl | ⟨c, rfl⟩ | ⟨nnn, rfl⟩ | ⟨v, u, hp, rfl⟩ | ⟨nnn, u, hp, rfl⟩ :=
    exec_control_cases he
  · exact h.untracked V _ _ _ _ fault
  · exact h.clearFramebuffer
  · exact h.skipIf hpc c
  · exact h.setPc (hjump nnn)
  · obtain ⟨hu, hv⟩ := h.popStack hp
    exact hu.setPc (by omega)
  · exact (h.pushStack hpc hp).setPc (hjump nnn)

/-- Every step keeps the invariant: a faulting cycle writes `fault` alone, a completed one is its
instruction's meaning on the advanced state. -/
theorem step_keeps_inv {s t : State} (h : s.Inv) (hs : step s = .next t) : t.Inv := by
  obtain ⟨-, ⟨-, rfl⟩ | ⟨w, e, -, -, rfl⟩ | ⟨w, i, hw, -, he, -⟩ |
    ⟨w, i, u, r, -, -, -, -, rfl⟩⟩ := step_cases hs
  · exact h.recordFault _
  · exact h.recordFault _
  · obtain ⟨hadd, hle⟩ := advance_toNat hw
    exact exec_keeps_inv (h.beginCycle hw) (by rw [beginCycle_pc]; omega) he
  · exact h.recordFault _

/-! ### The invariant under the host's operations -/

theorem reset_inv : State.reset.Inv :=
  ⟨reset_memory_wf, by decide, fun k hk => absurd hk (Nat.not_lt_zero _), rfl,
    fun c => by simp [State.reset]⟩

theorem resetWith_inv (base : Nat) (bytes : List Byte) : (resetWith base bytes).Inv :=
  reset_inv.withMemory (fontMemory_wf base bytes)

theorem loadRom_keeps_inv {bytes : List Byte} {s t : State} (h : s.Inv)
    (hl : loadRom bytes s = some t) : t.Inv := by
  obtain ⟨he, hwf⟩ := loadRom_some hl
  rw [he]
  exact h.withMemory (hwf h.memory_wf)

/-- Each of the eight operations keeps the invariant, accepted or refused. -/
theorem apply_keeps_inv (op : BlockOp) (b : Block) (h : b.state.Inv) :
    (b.apply op).1.state.Inv := by
  cases op with
  | reset base bytes seed =>
    rcases Block.restart_state_cases base bytes b with he | he
    · exact he ▸ h
    · exact he ▸ resetWith_inv base bytes
  | loadRom bytes =>
    rcases Block.load_state_cases bytes b with he | hl
    · exact he ▸ h
    · exact loadRom_keeps_inv h hl
  | cycle =>
    rcases Block.cycle_state_cases b with he | hs
    · exact he ▸ h
    · exact step_keeps_inv h hs
  | timerTick => exact h.untracked _ _ _ _ _ _
  | setKey k v => exact h.untracked _ _ _ _ _ _
  | readFramebuffer => exact h
  | readSound => exact h
  | readFault => exact h

/-- Settles O49: each operation keeps the invariant, and so by induction over the host's list of
operations does every run from `Reset`. -/
theorem reachableBlocksMeetTheInvariant : Obligations.ReachableBlocksMeetTheInvariant := by
  refine ⟨apply_keeps_inv, ?_⟩
  rintro b ⟨ops, rfl⟩
  exact Block.run_keeps (P := fun b => b.state.Inv) apply_keeps_inv ops reset_inv

end Sys2Proof.Machine
end

section
/-! SUPPORT. What a meaning reads and writes, said once for every instruction: its outputs
(spec/30_encoding.md R98), its general registers (spec/10_state.md R22, R29) and the pc it leaves
(R26). -/

namespace Sys2Proof.Machine

open Sys2Proof.Spec

/-! ### The flag values are those of the table -/

theorem boolByte_decide (c : Prop) [Decidable c] : boolByte (decide c) = bit c := by
  by_cases h : c <;> simp [boolByte, bit, h]

/-- Bit 0, the bit that SHR shifts out. -/
theorem shiftRightFlag_eq_bit (a : Byte) : shiftRightFlag a = bit (a.getLsbD 0 = true) := by
  have hmask : a &&& 0x01#8 = if a.getLsbD 0 then 0x01#8 else 0#8 := BitVec.and_twoPow a 0
  simp only [shiftRightFlag, bit, hmask]
  rfl

/-- Bit 7, the bit that SHL shifts out. -/
theorem shiftLeftFlag_eq_bit (a : Byte) : shiftLeftFlag a = bit (a.getLsbD 7 = true) := by
  have hmask : a &&& 0x80#8 = if a.getLsbD 7 then 0x80#8 else 0#8 := BitVec.and_twoPow a 7
  simp only [shiftLeftFlag, bit, hmask]
  split <;> rfl

/-! ### The five flag-setting meanings: V15 first, then Vx (10_state.md R29) -/

theorem exec_addReg (s : State) (x y : Reg) : exec (.addReg x y) s = .next
    ((s.setReg 15 (bit ((s.reg x).toNat + (s.reg y).toNat > 255))).setReg x
      (s.reg x + s.reg y)) := by
  rw [← boolByte_decide]
  rfl

/-- SUB takes its difference after the V15 write. -/
theorem exec_subReg (s : State) (x y : Reg) : exec (.subReg x y) s = .next
    ((s.setReg 15 (bit ((s.reg x).toNat > (s.reg y).toNat))).setReg x
      ((s.setReg 15 (bit ((s.reg x).toNat > (s.reg y).toNat))).reg x -
        (s.setReg 15 (bit ((s.reg x).toNat > (s.reg y).toNat))).reg y)) := by
  rw [← boolByte_decide]
  rfl

/-- SUBN takes its difference after the V15 write. -/
theorem exec_subnReg (s : State) (x y : Reg) : exec (.subnReg x y) s = .next
    ((s.setReg 15 (bit ((s.reg y).toNat > (s.reg x).toNat))).setReg x
      ((s.setReg 15 (bit ((s.reg y).toNat > (s.reg x).toNat))).reg y -
        (s.setReg 15 (bit ((s.reg y).toNat > (s.reg x).toNat))).reg x)) := by
  rw [← boolByte_decide]
  rfl

/-- SHR shifts what Vx holds after the V15 write. -/
theorem exec_shr (s : State) (x y : Reg) : exec (.shr x y) s = .next
    ((s.setReg 15 (bit ((s.reg x).getLsbD 0 = true))).setReg x
      ((s.setReg 15 (bit ((s.reg x).getLsbD 0 = true))).reg x >>> 1)) := by
  rw [← shiftRightFlag_eq_bit]
  rfl

/-- SHL shifts what Vx holds after the V15 write. -/
theorem exec_shl (s : State) (x y : Reg) : exec (.shl x y) s = .next
    ((s.setReg 15 (bit ((s.reg x).getLsbD 7 = true))).setReg x
      ((s.setReg 15 (bit ((s.reg x).getLsbD 7 = true))).reg x <<< 1)) := by
  rw [← shiftLeftFlag_eq_bit]
  rfl

/-! ### RET and CALL by the stack pointer (40_flow.md R111, R113) -/

theorem exec_ret_of_pos {s : State} (k : Fin 16) (h : s.sp.val = k.val + 1) :
    exec .ret s = .next { s with sp := k.castSucc, pc := s.stack[k] } := by
  simp only [exec, execRet, popStack_of_pos k h, State.setPc]

theorem exec_ret_of_empty {s : State} (h : s.sp.val = 0) :
    exec .ret s = raiseFault .stackUnderflow .ret s := by
  simp only [exec, execRet, popStack_of_empty h]

theorem exec_call_of_lt {s : State} (nnn : Addr) (k : Fin 16) (h : s.sp.val = k.val) :
    exec (.call nnn) s = .next
      { s with stack := s.stack.set k s.pc, sp := k.succ, pc := addrOperand nnn } := by
  simp only [exec, execCall, pushStack_of_lt _ k h, State.setPc]

theorem exec_call_of_full {s : State} (nnn : Addr) (h : s.sp.val = 16) :
    exec (.call nnn) s = raiseFault .stackOverflow (.call nnn) s := by
  simp only [exec, execCall, pushStack_of_full _ h]

theorem sp_empty_or_top (s : State) : s.sp.val = 0 ∨ ∃ k : Fin 16, s.sp.val = k.val + 1 := by
  cases h : s.sp using Fin.cases with
  | zero => exact .inl rfl
  | succ k => exact .inr ⟨k, rfl⟩

theorem sp_full_or_free (s : State) : s.sp.val = 16 ∨ ∃ k : Fin 16, s.sp.val = k.val := by
  cases h : s.sp using Fin.lastCases with
  | last => exact .inl rfl
  | cast k => exact .inr ⟨k, rfl⟩

/-! ### The outputs of a meaning (30_encoding.md R98) -/

/-- `exec` is a function: two equations for one meaning name the same state. -/
theorem exec_unique {i : Instr} {s t u : State} (ht : exec i s = .next t)
    (hu : exec i s = .next u) : t = u := Host.Outcome.next.inj (ht.symm.trans hu)

/-- A meaning writes `V`, `pc`, `sp`, `stack` and `fb`, or a fault, and no other field. -/
theorem exec_outputs {i : Instr} {s t : State} (h : exec i s = .next t) :
    t = { s with V := t.V, pc := t.pc, sp := t.sp, stack := t.stack, fb := t.fb,
                 fault := t.fault } := by
  obtain ⟨-, V, pc, sp, stack, fb, hu⟩ | ⟨-, c, -, hu⟩ | ⟨-, hu⟩ := exec_cases i s
  · rw [exec_unique h hu]
  · rw [exec_unique h (hu.trans (raiseFault_eq c i s))]
  · rw [exec_unique h (hu.trans (raiseFault_eq _ i s))]

/-- No meaning changes memory, `index`, a timer, a key or `opcode`. -/
theorem exec_unwritten_fields {i : Instr} {s t : State} (h : exec i s = .next t) :
    (∀ a, memRead a t = memRead a s) ∧ t.index = s.index ∧ t.delayTimer = s.delayTimer ∧
      t.soundTimer = s.soundTimer ∧ t.keypad = s.keypad ∧ t.opcode = s.opcode := by
  rw [exec_outputs h]
  exact ⟨fun _ => rfl, rfl, rfl, rfl, rfl, rfl⟩

/-- An instruction outside the subset does not complete (30_encoding.md R92). -/
theorem implemented_of_exec_running {i : Instr} {s t : State} (h : exec i s = .next t)
    (ht : t.Running) : i.implemented = true := by
  obtain ⟨hi, -⟩ | ⟨hi, -⟩ | ⟨-, hu⟩ := exec_cases i s
  · exact hi
  · exact hi
  · rw [exec_unique h (hu.trans (raiseFault_eq _ i s))] at ht
    cases ht

/-! ### Skips (41_skip.md R120 to R123) -/

theorem exec_of_skipCondition {i : Instr} {s : State} {c : Bool}
    (hc : skipCondition i s = some c) : exec i s = .next (skipIf c s) := by
  cases i
  case seImm | sneImm | seReg =>
    cases hc
    rfl
  all_goals cases hc

/-- A skip's condition depends on the registers it reads alone. -/
theorem skipCondition_congr {i : Instr} {s s' : State}
    (hreads : ∀ r, readsReg i r → s'.reg r = s.reg r) :
    skipCondition i s' = skipCondition i s := by
  cases i
  case seImm x kk | sneImm x kk => simp only [skipCondition, hreads x rfl]
  case seReg x y => simp only [skipCondition, hreads x (.inl rfl), hreads y (.inr rfl)]
  all_goals rfl

/-! ### The general registers of a meaning (10_state.md R22) -/

/-- RET reads no register: it does the same to the other fields whatever the registers hold. -/
theorem exec_ret_any_regs {s t : State} (V : Vector Byte 16) (h : exec .ret s = .next t) :
    t.V = s.V ∧ exec .ret { s with V := V } = .next { t with V := V } := by
  obtain h0 | ⟨k, hk⟩ := sp_empty_or_top s
  · cases exec_unique h (exec_ret_of_empty h0)
    exact ⟨rfl, exec_ret_of_empty (s := { s with V := V }) h0⟩
  · cases exec_unique h (exec_ret_of_pos k hk)
    exact ⟨rfl, exec_ret_of_pos (s := { s with V := V }) k hk⟩

/-- CALL reads no register: it does the same to the other fields whatever the registers hold. -/
theorem exec_call_any_regs {nnn : Addr} {s t : State} (V : Vector Byte 16)
    (h : exec (.call nnn) s = .next t) :
    t.V = s.V ∧ exec (.call nnn) { s with V := V } = .next { t with V := V } := by
  obtain h16 | ⟨k, hk⟩ := sp_full_or_free s
  · cases exec_unique h (exec_call_of_full nnn h16)
    exact ⟨rfl, exec_call_of_full (s := { s with V := V }) nnn h16⟩
  · cases exec_unique h (exec_call_of_lt nnn k hk)
    exact ⟨rfl, exec_call_of_lt (s := { s with V := V }) nnn k hk⟩

/-- A skip whose registers hold the same in both states does the same to the other fields. -/
theorem exec_skip_any_regs {i : Instr} {s t : State} {c : Bool} {V : Vector Byte 16}
    (hc : skipCondition i s = some c) (h : exec i s = .next t)
    (hreads : ∀ r, readsReg i r → State.reg { s with V := V } r = s.reg r) :
    t.V = s.V ∧ exec i { s with V := V } = .next { t with V := V } := by
  cases exec_unique h (exec_of_skipCondition hc)
  rw [exec_of_skipCondition ((skipCondition_congr hreads).trans hc)]
  cases c <;> exact ⟨rfl, rfl⟩

/-- What a meaning does to the general registers, from two states that differ at most in registers
it does not read: it writes one register, or V15 and then one register, with the same values from
both states, or it writes none and does the same to the other fields of both. -/
theorem exec_register_cases {i : Instr} {s s' t : State} (h : exec i s = .next t)
    (hsame : SameButRegisters s s') (hreads : ∀ r, readsReg i r → s'.reg r = s.reg r) :
    (∃ x v, (∀ r, writesReg i r ↔ r = x) ∧ t = s.setReg x v ∧
      exec i s' = .next (s'.setReg x v)) ∨
    (∃ x f v, (∀ r, writesReg i r ↔ r = 15 ∨ r = x) ∧ t = (s.setReg 15 f).setReg x v ∧
      exec i s' = .next ((s'.setReg 15 f).setReg x v)) ∨
    ((∀ r, ¬ writesReg i r) ∧ t.V = s.V ∧ exec i s' = .next { t with V := s'.V }) := by
  obtain ⟨V, rfl⟩ : ∃ V, s' = { s with V := V } := ⟨s'.V, hsame⟩
  cases i
  case ldImm x kk => exact .inl ⟨x, kk, fun _ => .rfl, exec_unique h rfl, rfl⟩
  case addImm x kk =>
    refine .inl ⟨x, s.reg x + kk, fun _ => .rfl, exec_unique h rfl, ?_⟩
    rw [← hreads x rfl]
    rfl
  case ldReg x y =>
    refine .inl ⟨x, s.reg y, fun _ => .rfl, exec_unique h rfl, ?_⟩
    rw [← hreads y rfl]
    rfl
  case orReg x y | andReg x y | xorReg x y =>
    refine .inl ⟨x, _, fun _ => .rfl, exec_unique h rfl, ?_⟩
    simp only [exec, execOrReg, execAndReg, execXorReg, regOperand, hreads x (.inl rfl),
      hreads y (.inr rfl)]
  case addReg x y =>
    refine .inr (.inl ⟨x, _, _, fun _ => .rfl, exec_unique h (exec_addReg s x y), ?_⟩)
    rw [exec_addReg, hreads x (.inl rfl), hreads y (.inr rfl)]
  case subReg x y =>
    refine .inr (.inl ⟨x, _, _, fun _ => .rfl, exec_unique h (exec_subReg s x y), ?_⟩)
    simp only [exec_subReg, State.reg_setReg, hreads x (.inl rfl), hreads y (.inr rfl)]
  case subnReg x y =>
    refine .inr (.inl ⟨x, _, _, fun _ => .rfl, exec_unique h (exec_subnReg s x y), ?_⟩)
    simp only [exec_subnReg, State.reg_setReg, hreads x (.inl rfl), hreads y (.inr rfl)]
  case shr x y =>
    refine .inr (.inl ⟨x, _, _, fun _ => .rfl, exec_unique h (exec_shr s x y), ?_⟩)
    simp only [exec_shr, State.reg_setReg, hreads x rfl]
  case shl x y =>
    refine .inr (.inl ⟨x, _, _, fun _ => .rfl, exec_unique h (exec_shl s x y), ?_⟩)
    simp only [exec_shl, State.reg_setReg, hreads x rfl]
  case seImm | sneImm | seReg =>
    exact .inr (.inr ⟨fun _ => id, exec_skip_any_regs rfl h hreads⟩)
  case ret => exact .inr (.inr ⟨fun _ => id, exec_ret_any_regs V h⟩)
  case call nnn => exact .inr (.inr ⟨fun _ => id, exec_call_any_regs V h⟩)
  all_goals
    cases exec_unique h rfl
    exact .inr (.inr ⟨fun _ => id, rfl, rfl⟩)

/-- A meaning changes no register outside R22's writes. -/
theorem exec_reg_of_not_writesReg {i : Instr} {s t : State} {r : Reg} (h : exec i s = .next t)
    (hr : ¬ writesReg i r) : t.reg r = s.reg r := by
  obtain ⟨x, v, hw, rfl, -⟩ | ⟨x, f, v, hw, rfl, -⟩ | ⟨-, hV, -⟩ :=
    exec_register_cases h (s' := s) rfl fun _ _ => rfl
  · exact State.reg_setReg_of_ne s v fun e => hr ((hw r).mpr e)
  · rw [State.reg_setReg_of_ne _ v fun e => hr ((hw r).mpr (.inr e)),
      State.reg_setReg_of_ne s f fun e => hr ((hw r).mpr (.inl e))]
  · simp only [State.reg_eq, hV]

/-- A meaning that writes some register changes nothing but registers. -/
theorem exec_sameButRegisters_of_writesReg {i : Instr} {s t : State} {x : Reg}
    (h : exec i s = .next t) (hx : writesReg i x) : SameButRegisters s t := by
  obtain ⟨x, v, -, rfl, -⟩ | ⟨x, f, v, -, rfl, -⟩ | ⟨hnone, -, -⟩ :=
    exec_register_cases h (s' := s) rfl fun _ _ => rfl
  · rfl
  · rfl
  · exact absurd hx (hnone x)

theorem keepsAllButRegisters_of_same {s t : State} (h : SameButRegisters s t) :
    KeepsAllButRegisters s t := by
  rw [show t = { s with V := t.V } from h]
  exact ⟨fun _ => rfl, rfl, rfl, rfl, rfl, rfl, rfl, rfl, rfl, rfl, rfl⟩

/-- The same value in the same register, written to two states that differ in registers at most. -/
theorem setReg_sameButRegisters {s s' : State} (h : SameButRegisters s s') (x : Reg) (v : Byte) :
    SameButRegisters (s.setReg x v) (s'.setReg x v) := by
  rw [show s' = { s with V := s'.V } from h]
  rfl

/-- No register outside R22's reads influences what a meaning writes. -/
theorem exec_reads_bound {i : Instr} {s s' t : State} (h : exec i s = .next t)
    (hsame : SameButRegisters s s') (hreads : ∀ r, readsReg i r → s'.reg r = s.reg r) :
    ∃ t', exec i s' = .next t' ∧ SameButRegisters t t' ∧
      (∀ r, writesReg i r → t'.reg r = t.reg r) := by
  obtain ⟨x, v, hw, rfl, h'⟩ | ⟨x, f, v, hw, rfl, h'⟩ | ⟨hnone, -, h'⟩ :=
    exec_register_cases h hsame hreads
  · refine ⟨_, h', setReg_sameButRegisters hsame x v, fun r hr => ?_⟩
    simp only [State.reg_setReg, (hw r).mp hr, if_true]
  · refine ⟨_, h', setReg_sameButRegisters (setReg_sameButRegisters hsame 15 f) x v,
      fun r hr => ?_⟩
    obtain rfl | rfl := (hw r).mp hr <;> simp only [State.reg_setReg, if_true]
  · exact ⟨_, h', rfl, fun r hr => absurd hr (hnone r)⟩

/-! ### The pc that a meaning leaves (10_state.md R26) -/

/-- A skip entered at p + 2 ends at p + 4 or p + 2 (41_skip.md R120). -/
theorem exec_skip_beginCycle_pc {i : Instr} {s t : State} {w : Word} {c : Bool}
    (hc : skipCondition i s = some c) (h : exec i (beginCycle w s) = .next t) :
    t.pc = if skipCondition i s = some true then s.pc + 4 else s.pc + 2 := by
  have hc' : skipCondition i (beginCycle w s) = some c :=
    (skipCondition_congr fun _ _ => rfl).trans hc
  cases exec_unique h (exec_of_skipCondition hc')
  rw [skipIf_eq, hc]
  cases c with
  | false => rfl
  | true => exact BitVec.add_assoc s.pc 2 2

/-- A meaning that completes in the advanced state leaves pc where R26 says. -/
theorem exec_beginCycle_pc {i : Instr} {s t : State} {w : Word}
    (h : exec i (beginCycle w s) = .next t) (ht : t.Running) : t.pc = pcAfter i s := by
  have himpl := implemented_of_exec_running h ht
  cases i
  case seImm | sneImm | seReg => exact exec_skip_beginCycle_pc rfl h
  case jp nnn =>
    cases exec_unique h rfl
    rfl
  case ret =>
    obtain h0 | ⟨k, hk⟩ := sp_empty_or_top s
    · cases exec_unique h (exec_ret_of_empty (s := beginCycle w s) h0)
      cases ht
    · cases exec_unique h (exec_ret_of_pos (s := beginCycle w s) k hk)
      simp [pcAfter, hk]
  case call nnn =>
    obtain h16 | ⟨k, hk⟩ := sp_full_or_free s
    · cases exec_unique h (exec_call_of_full (s := beginCycle w s) nnn h16)
      cases ht
    · cases exec_unique h (exec_call_of_lt (s := beginCycle w s) nnn k hk)
      rfl
  case cls | ldImm | addImm | ldReg | orReg | andReg | xorReg | addReg | subReg | shr | subnReg |
      shl =>
    cases exec_unique h rfl
    rfl
  all_goals cases himpl

/-! ### The instructions of the two frames, by what they write -/

theorem writesReg_register_instructions (x y : Reg) (kk : Byte) :
    ∀ i ∈ [.ldImm x kk, .addImm x kk, .ldReg x y, .orReg x y, .andReg x y, .xorReg x y,
      .addReg x y, .subReg x y, .shr x y, .subnReg x y, .shl x y],
      writesReg i x ∧ ∀ r, writesReg i r → r = 15 ∨ r = x := by
  simp +contextual [writesReg]

theorem writesReg_flagless_instructions (x y : Reg) (kk : Byte) :
    ∀ i ∈ [.ldImm x kk, .addImm x kk, .ldReg x y, .orReg x y, .andReg x y, .xorReg x y],
      ∀ r, writesReg i r → r = x := by
  simp [writesReg]

/-- No flow instruction writes a register, and all but CLS, RET and CALL write pc alone. -/
theorem flow_instruction_cases (s : State) (x y : Reg) (kk : Byte) (nnn : Addr) :
    ∀ i ∈ [.cls, .ret, .jp nnn, .call nnn, .seImm x kk, .sneImm x kk, .seReg x y],
      (∀ r, ¬ writesReg i r) ∧ (i = .cls ∨ i = .ret ∨ i = .call nnn ∨
        i ≠ .cls ∧ ∃ p, exec i s = .next (s.setPc p)) := by
  have hjump : ∃ p, exec (.jp nnn) s = .next (s.setPc p) := ⟨_, rfl⟩
  have hskip {i : Instr} {c : Bool} (hc : skipCondition i s = some c) :
      ∃ p, exec i s = .next (s.setPc p) :=
    ⟨_, (exec_of_skipCondition hc).trans (congrArg _ (skipIf_eq c s))⟩
  simpa [writesReg, hjump] using
    And.intro (hskip (i := .seImm x kk) rfl)
      (And.intro (hskip (i := .sneImm x kk) rfl) (hskip (i := .seReg x y) rfl))

/-! ### The obligations of the family -/

/-- Settles O48: `step_keeps_inv`. -/
theorem stepKeepsTheInvariant : Obligations.StepKeepsTheInvariant :=
  fun _ _ => step_keeps_inv

/-- Settles O38, from the equations of the five flag-setting meanings; every other instruction
keeps the registers outside R22's writes. -/
theorem flagIsWrittenBeforeVx : Obligations.FlagIsWrittenBeforeVx := by
  refine ⟨fun s x y => ?_, fun i s t hi h => exec_reg_of_not_writesReg h hi, rfl⟩
  exact ⟨⟨_, exec_addReg s x y⟩, ⟨_, exec_subReg s x y⟩, ⟨_, exec_subnReg s x y⟩,
    ⟨_, exec_shr s x y⟩, ⟨_, exec_shl s x y⟩⟩

/-- Settles O40: each of the eleven writes Vx, so it changes nothing but registers, and of those
only the ones R22 lists. -/
theorem registerInstructionsFrame : Obligations.RegisterInstructionsFrame := by
  intro s t x y kk i hi h
  obtain ⟨hx, hw⟩ := writesReg_register_instructions x y kk i hi
  refine ⟨keepsAllButRegisters_of_same (exec_sameButRegisters_of_writesReg h hx),
    fun r hrx hr15 => exec_reg_of_not_writesReg h fun hr => ?_,
    fun hplain r hrx => exec_reg_of_not_writesReg h fun hr => ?_⟩
  · exact (hw r hr).elim hr15 hrx
  · exact hrx (writesReg_flagless_instructions x y kk i hplain r hr)

/-- Settles O41: no flow instruction writes a register; the other fields by instruction, with RET
and CALL by the stack pointer. -/
theorem flowInstructionsFrame : Obligations.FlowInstructionsFrame := by
  intro s t x y kk nnn i hi h
  obtain ⟨hmem, hindex, hdelay, hsound, hkeys, hopcode⟩ := exec_unwritten_fields h
  obtain ⟨hnone, hshape⟩ := flow_instruction_cases s x y kk nnn i hi
  refine ⟨fun r => exec_reg_of_not_writesReg h (hnone r), hmem, hindex, hdelay, hsound, hkeys,
    hopcode, ?_⟩
  obtain rfl | rfl | rfl | ⟨hcls, p, hp⟩ := hshape
  · cases exec_unique h rfl
    exact ⟨fun hne => absurd rfl hne, fun _ => rfl, fun _ _ => rfl, fun _ _ => ⟨rfl, rfl⟩,
      fun _ => rfl⟩
  · obtain h0 | ⟨k, hk⟩ := sp_empty_or_top s
    · cases exec_unique h (exec_ret_of_empty h0)
      exact ⟨fun _ => rfl, fun _ => rfl, fun _ _ => rfl, fun _ hne => absurd rfl hne, nofun⟩
    · cases exec_unique h (exec_ret_of_pos k hk)
      exact ⟨fun _ => rfl, fun _ => rfl, fun _ _ => rfl, fun _ hne => absurd rfl hne, nofun⟩
  · obtain h16 | ⟨k, hk⟩ := sp_full_or_free s
    · cases exec_unique h (exec_call_of_full nnn h16)
      exact ⟨fun _ => rfl, fun _ => rfl, fun _ _ => rfl, fun hne => absurd rfl hne, nofun⟩
    · cases exec_unique h (exec_call_of_lt nnn k hk)
      refine ⟨fun _ => rfl, fun hne => absurd rfl hne, fun j hj => ?_, fun hne => absurd rfl hne,
        nofun⟩
      exact Vector.getElem_set_ne k.isLt j.isLt (by omega)
  · cases exec_unique h hp
    exact ⟨fun _ => rfl, fun _ => rfl, fun _ _ => rfl, fun _ _ => ⟨rfl, rfl⟩,
      fun he => absurd he hcls⟩

/-- Settles O43: the bound on the writes, and that on the reads, from two states. -/
theorem instructionsReadAndWriteTheListedRegisters :
    Obligations.InstructionsReadAndWriteTheListedRegisters := by
  intro i s s' t _ h
  refine ⟨fun r hr => exec_reg_of_not_writesReg h hr, fun hsame hreads => ?_⟩
  obtain ⟨t', h', hrest, hvalues⟩ := exec_reads_bound h hsame hreads
  exact ⟨t', h', hrest, hvalues, fun r hr => exec_reg_of_not_writesReg h' hr⟩

/-- Settles O45: a completed cycle by its instruction's meaning; a faulting one writes `fault`
alone. -/
theorem pcAfterEachCycle : Obligations.PcAfterEachCycle := by
  intro s t w i _ hw hd hs
  obtain ⟨-, ⟨-, rfl⟩ | ⟨w', e, -, -, rfl⟩ | ⟨w', j, hw', hd', he, ht⟩ |
    ⟨w', j, u, r, -, -, -, -, rfl⟩⟩ := step_cases hs
  · rfl
  · rfl
  · obtain rfl : w' = w := Option.some.inj (hw'.symm.trans hw)
    obtain rfl : j = i := Except.ok.inj (hd'.symm.trans hd)
    rw [if_pos ht, exec_beginCycle_pc he ht]
  · rfl

/-- Settles O46: a completed cycle keeps the opcode of the advanced state; a faulting one writes
`fault` alone. -/
theorem opcodeHoldsTheFetchedWord : Obligations.OpcodeHoldsTheFetchedWord := by
  intro s t _ hs
  obtain ⟨-, ⟨-, rfl⟩ | ⟨w, e, -, -, rfl⟩ | ⟨w, i, hw, -, he, ht⟩ |
    ⟨w, i, u, r, -, -, -, -, rfl⟩⟩ := step_cases hs
  · exact ⟨nofun, fun _ => rfl⟩
  · exact ⟨nofun, fun _ => rfl⟩
  · refine ⟨fun _ => ?_, fun hf => absurd ht hf⟩
    obtain ⟨-, -, -, -, -, hopcode⟩ := exec_unwritten_fields he
    rw [hw, hopcode, beginCycle_opcode]
  · exact ⟨nofun, fun _ => rfl⟩

/-- Settles O1: a write is read back and changes no other register and no other field. -/
theorem registersReadAsLastWritten : Obligations.RegistersReadAsLastWritten := by
  intro s r q v
  refine ⟨State.reg_setReg_self s r v, State.reg_setReg_of_ne s v, rfl, ?_⟩
  simp [State.reg, State.reset]

end Sys2Proof.Machine
end

section
/-! SUPPORT. Memory as the machine and the host use it (spec/20_memory.md): who may change it, what
`LoadRom` leaves at each address, and when `LoadRom` is accepted. -/

namespace Sys2Proof.Machine

/-! ### Defined accesses (20_memory.md R61, R62) -/

theorem memWrite_of_lt {a : Nat} (v : Byte) (s : State) (h : a < 4096) :
    memWrite a v s = some { s with memory := s.memory.write a v } :=
  memWrite_eq_some.mpr ⟨h, rfl⟩

theorem memWrite_of_ge {a : Nat} (v : Byte) (s : State) (h : 4096 ≤ a) :
    memWrite a v s = none :=
  if_neg (by simp only [Config.memorySize]; omega)

theorem memRead_congr {a : Nat} {s t : State} (h : t.memory.read a = s.memory.read a) :
    memRead a t = memRead a s := by
  simp only [memRead, h]

/-! ### No instruction, no step and no other host operation changes memory -/

theorem exec_memory {i : Instr} {s t : State} (h : exec i s = .next t) : t.memory = s.memory := by
  rw [exec_outputs h]

theorem step_memory {s t : State} (h : step s = .next t) : t.memory = s.memory := by
  obtain ⟨-, ⟨-, rfl⟩ | ⟨w, e, -, -, rfl⟩ | ⟨w, i, -, -, he, -⟩ |
    ⟨w, i, u, r, -, -, -, -, rfl⟩⟩ := step_cases h
  · rfl
  · rfl
  · rw [exec_memory he, beginCycle_memory]
  · rfl

theorem apply_memory {op : BlockOp} (b : Block) (hload : ∀ bytes, op ≠ .loadRom bytes)
    (hreset : op.isReset = false) : (b.apply op).1.state.memory = b.state.memory := by
  cases op with
  | reset base bytes seed => cases hreset
  | loadRom bytes => exact absurd rfl (hload bytes)
  | cycle =>
    obtain he | hs := Block.cycle_state_cases b
    · exact congrArg State.memory he
    · exact step_memory hs
  | timerTick => rfl
  | setKey k v => rfl
  | readFramebuffer => rfl
  | readSound => rfl
  | readFault => rfl

/-! ### Copying bytes (20_memory.md R70, R71) -/

theorem writeBytes_cons {a : Nat} (v : Byte) (rest : List Byte) (s : State) (h : a < 4096) :
    writeBytes a (v :: rest) s =
      writeBytes (a + 1) rest { s with memory := s.memory.write a v } := by
  simp only [writeBytes, memWrite_of_lt v s h]

/-- Bytes that end within memory are all written: from `a` up memory reads as the bytes, and
elsewhere as before. -/
theorem writeBytes_fits {bytes : List Byte} {a : Nat} {s : State} (hwf : s.memory.wf)
    (hfit : a + bytes.length ≤ 4096) : ∃ t, writeBytes a bytes s = some t ∧
      (∀ i, i < bytes.length → t.memory.read (a + i) = bytes.getD i 0x00#8) ∧
      (∀ b, b < a ∨ a + bytes.length ≤ b → t.memory.read b = s.memory.read b) := by
  induction bytes generalizing a s with
  | nil => exact ⟨s, rfl, nofun, fun _ _ => rfl⟩
  | cons v rest ih =>
    rw [List.length_cons] at hfit
    have ha : a < 4096 := by omega
    obtain ⟨t, ht, hin, hout⟩ := ih (a := a + 1) (s := { s with memory := s.memory.write a v })
      (Memory.wf_write v hwf ha) (by omega)
    refine ⟨t, (writeBytes_cons v rest s ha).trans ht, fun i hi => ?_, fun b hb => ?_⟩
    · cases i with
      | zero =>
        calc t.memory.read a = (s.memory.write a v).read a := hout a (.inl (Nat.lt_succ_self a))
          _ = v := Memory.read_write_same v hwf.1
      | succ j =>
        rw [show a + (j + 1) = a + 1 + j by omega]
        exact hin j (Nat.lt_of_succ_lt_succ hi)
    · rw [List.length_cons] at hb
      calc t.memory.read b = (s.memory.write a v).read b := hout b (by omega)
        _ = s.memory.read b := Memory.read_write_other _ v (by omega)

theorem loadRom_of_le {bytes : List Byte} (s : State) (h : bytes.length ≤ 0xE00) :
    loadRom bytes s = writeBytes 0x200 bytes s :=
  if_neg (by simp only [Config.programOrigin, Config.memorySize]; omega)

theorem loadRom_of_gt {bytes : List Byte} (s : State) (h : 0xE00 < bytes.length) :
    loadRom bytes s = none :=
  if_pos (by simp only [Config.programOrigin, Config.memorySize]; omega)

/-! ### `LoadRom` by the block's phase (20_memory.md R70 to R73, log entry 8) -/

theorem Block.load_accepted {bytes : List Byte} {b : Block} {t : State} (hp : b.phase = .fresh)
    (h : Machine.loadRom bytes b.state = some t) :
    b.load bytes = ({ state := t, phase := .loaded }, .ok) := by
  simp only [Block.load, hp, h]

theorem Block.load_tooLarge {bytes : List Byte} {b : Block} (hp : b.phase = .fresh)
    (h : Machine.loadRom bytes b.state = none) : b.load bytes = (b, .romTooLarge) := by
  simp only [Block.load, hp, h]

theorem Block.load_running (bytes : List Byte) {b : Block} (hp : b.phase = .running) :
    b.load bytes = (b, .loadRefused) := by
  simp only [Block.load, hp]

/-! ### After the first `Cycle` (20_memory.md R73) -/

/-- A `Cycle` counts as called whatever it answers, a halted engine's included. -/
theorem Block.cycle_phase (b : Block) : b.cycle.1.phase = .running := by
  unfold Block.cycle
  split
  · rfl
  · rfl
  · rfl

theorem apply_keeps_running {op : BlockOp} {b : Block} (ho : op.isReset = false)
    (hp : b.phase = .running) : (b.apply op).1.phase = .running := by
  cases op with
  | reset base bytes seed => cases ho
  | loadRom bytes =>
    show (b.load bytes).1.phase = .running
    rw [Block.load_running bytes hp]
    exact hp
  | cycle => exact Block.cycle_phase b
  | timerTick => exact hp
  | setKey k v => exact hp
  | readFramebuffer => exact hp
  | readSound => exact hp
  | readFault => exact hp

/-- What every operation but `Reset` keeps, every run of the host without `Reset` keeps. -/
theorem Block.run_keeps_without_reset {P : Block → Prop}
    (hop : ∀ op b, op.isReset = false → P b → P (b.apply op).1) {ops : List BlockOp}
    (hops : ∀ op ∈ ops, op.isReset = false) {b : Block} (hb : P b) : P (Block.run ops b) := by
  induction ops generalizing b with
  | nil => exact hb
  | cons op rest ih =>
    obtain ⟨ho, hrest⟩ := List.forall_mem_cons.mp hops
    exact ih hrest (hop op b ho hb)

/-! ### The obligations of the family -/

/-- Settles O7: a store is read back and changes memory alone; a meaning's outputs do not include
memory, so no step and no host operation but `LoadRom` and `Reset` changes it. -/
theorem memoryReadsLastByteWritten : Obligations.MemoryReadsLastByteWritten := by
  refine ⟨fun s a v hwf ha => ?_, fun s a v ha => ⟨memRead_of_ge s ha, memWrite_of_ge v s ha⟩,
    fun _ _ _ => exec_memory, fun _ b => apply_memory b⟩
  have hlt : a < 4096 := by omega
  refine ⟨_, memWrite_of_lt v s hlt, ?_, fun b hb => ?_, Memory.wf_write v hwf hlt, rfl⟩
  · exact memRead_eq_some.mpr ⟨hlt, Memory.read_write_same v hwf.1⟩
  · exact memRead_congr (Memory.read_write_other s.memory v hb)

/-- Settles O8: a ROM that fits is copied byte by byte from 0x200, and nothing else changes. -/
theorem loadRomCopiesVerbatim : Obligations.LoadRomCopiesVerbatim := by
  refine fun s bytes hwf => ⟨fun hlen => ?_, loadRom_of_gt s⟩
  obtain ⟨t, hw, hin, hout⟩ := writeBytes_fits (a := 0x200) (bytes := bytes) hwf (by omega)
  have hl : loadRom bytes s = some t := (loadRom_of_le s hlen).trans hw
  obtain ⟨hframe, hkeep⟩ := loadRom_some hl
  refine ⟨t, hl, Block.load_accepted (b := ⟨s, .fresh⟩) rfl hl, hframe, hkeep hwf,
    fun i hi => ?_, fun a ha => ?_⟩
  · exact memRead_eq_some.mpr ⟨by omega, hin i hi⟩
  · exact memRead_congr (hout a ha)

/-- Settles O10: the cycle leaves the phase `running`, every operation but `Reset` keeps it, and a
running block refuses the load. -/
theorem loadRomIsRefusedAfterFirstCycle : Obligations.LoadRomIsRefusedAfterFirstCycle := by
  intro b ops bytes hops
  have hrun : (Block.run ops (b.apply .cycle).1).phase = .running :=
    Block.run_keeps_without_reset (P := fun b => b.phase = .running)
      (fun _ _ => apply_keeps_running) hops (Block.cycle_phase b)
  exact Block.load_running bytes hrun

/-- Settles O4: both bytes at 0x200 read 0, the word 0x0000 is SYS 0x000, and SYS raises
UnimplementedOpcode. -/
theorem firstCycleOfEmptyMachineFaults : Obligations.FirstCycleOfEmptyMachineFaults := by
  have hfetch : fetchWord State.reset = some 0x0000#16 := by
    refine fetchWord_eq_some.mpr ⟨by decide, ?_⟩
    show 0x0000#16 = wordOfBytes (resetByte 0x200) (resetByte 0x201)
    rw [resetByte_of_ge (by decide), resetByte_of_ge (by decide)]
    rfl
  have hdecode : decodeWord 0x0000#16 = .ok (.sys 0x000#12) := rfl
  exact (step_decoded rfl hfetch hdecode).trans (endCycle_raised rfl)

/-- Settles O5: the fetched word is the two bytes read, the one at the lower address high. -/
theorem fetchIsBigEndian : Obligations.FetchIsBigEndian := by
  intro s hi lo hpc hhi hlo
  obtain ⟨-, rfl⟩ := memRead_eq_some.mp hhi
  obtain ⟨-, rfl⟩ := memRead_eq_some.mp hlo
  exact fetchWord_eq_some.mpr ⟨hpc, (wordOfBytes_eq _ _).symm⟩

/-- Settles O9: the load writes nothing, and a fresh block answers RomTooLarge unchanged. -/
theorem oversizedRomIsRefused : Obligations.OversizedRomIsRefused := by
  intro b bytes hlen hp
  have hnone := loadRom_of_gt b.state hlen
  exact ⟨hnone, Block.load_tooLarge hp hnone⟩

end Sys2Proof.Machine
end

section
/-! SUPPORT. The instruction word (spec/30_encoding.md): decoding inverts encoding on well-formed
instructions and encoding inverts decoding, what the decoder refuses, the pattern table, and the
fields by mask and shift. -/

namespace Sys2Proof.Machine

open Sys2Proof.Spec Sys2Proof.Laws

/-! ### Decoding inverts encoding (30_encoding.md R89, R90, R92) -/

/-- A SYS word whose address is neither that of CLS nor that of RET falls through to SYS. -/
theorem decodeFamily0_encodeAddr {nnn : Addr} (hcls : nnn ≠ 0x0E0#12) (hret : nnn ≠ 0x0EE#12) :
    decodeFamily0 (encodeAddr 0x0#4 nnn) = .ok (.sys nnn) := by
  have hne {w : Word} (h : nnn ≠ fieldNNN w) : encodeAddr 0x0#4 nnn ≠ w := fun e =>
    h (by rw [← e, fieldNNN_encodeAddr])
  have hnotCls : encodeAddr 0x0#4 nnn ≠ 0x00E0#16 := hne hcls
  have hnotRet : encodeAddr 0x0#4 nnn ≠ 0x00EE#16 := hne hret
  simp only [decodeFamily0, hnotCls, hnotRet, if_false, fieldNNN_encodeAddr]

/-- Decoding the word of a well-formed instruction gives it back: first its family, then the second
level of families 0x0, 0x5, 0x8, 0x9, 0xE and 0xF. -/
theorem decodeWord_encode {i : Instr} (hi : i.wf = true) : decodeWord (encode i) = .ok i := by
  cases i
  case cls | ret => rfl
  case sys nnn =>
    simp only [Instr.wf, Bool.and_eq_true, bne_iff_ne] at hi
    obtain ⟨hcls, hret⟩ := hi
    simpa [decodeWord, encode] using decodeFamily0_encodeAddr hcls hret
  case jp | call | seImm | sneImm | ldImm | addImm | ldI | jpV0 | rnd | drw =>
    simp [decodeWord, encode]
  case seReg => simp [decodeWord, encode, decodeFamily5]
  case sneReg => simp [decodeWord, encode, decodeFamily9]
  case skp | sknp => simp [decodeWord, encode, decodeFamilyE]
  case ldReg | orReg | andReg | xorReg | addReg | subReg | shr | subnReg | shl =>
    simp [decodeWord, encode, decodeFamily8]
  case ldVxDt | ldVxK | ldDtVx | ldStVx | addI | ldF | ldB | ldMemVx | ldVxMem =>
    simp [decodeWord, encode, decodeFamilyF]

/-- Decoding takes the two bytes of an instruction and leaves the rest (30_encoding.md R80). -/
theorem decodeBytes_encodeBytes {i : Instr} (hi : i.wf = true) (rest : List Byte) :
    decodeBytes (encodeBytes i ++ rest) = .ok (i, rest) := by
  simp [decodeBytes, encodeBytes, decodeWord_encode hi]

/-- Settles O11: the word by its family and second level, and the bytes by the word. -/
theorem decodeOfEncodeIsTheInstruction : Obligations.DecodeOfEncodeIsTheInstruction :=
  fun _ hi => ⟨decodeWord_encode hi, decodeBytes_encodeBytes hi⟩

/-! ### Encoding inverts decoding -/

/-- A word of format `addr`, by its family. -/
theorem encodeAddr_of_family {w : Word} {f : Nibble} (hf : fieldF w = f) :
    encodeAddr f (fieldNNN w) = w := by rw [← hf, encodeAddr_fields]

/-- A word of format `reg_imm`, by its family. -/
theorem encodeRegImm_of_family {w : Word} {f : Nibble} (hf : fieldF w = f) :
    encodeRegImm f (fieldX w) (fieldKK w) = w := by rw [← hf, encodeRegImm_fields]

/-- A word of format `reg`, by its family and its low byte. -/
theorem encodeReg_of_family {w : Word} {f : Nibble} {kk : Byte} (hf : fieldF w = f)
    (hkk : fieldKK w = kk) : encodeRegImm f (fieldX w) kk = w := by
  rw [← hf, ← hkk, encodeRegImm_fields]

/-- A word of format `reg_reg`, by its family and its low nibble. -/
theorem encodeRegReg_of_family {w : Word} {f n : Nibble} (hf : fieldF w = f)
    (hn : fieldN w = n) : encodeRegReg f (fieldX w) (fieldY w) n = w := by
  rw [← hf, ← hn, encodeRegReg_fields]

/-- What a decoder may answer for a word: an instruction of that word, or, for a word of R91's
five classes, that it is unrecognized. -/
def DecodesTo (w : Word) (r : Except DecodeError Instr) : Prop :=
  match r with
  | .ok i => encode i = w ∧ i.wf = true
  | .error e => e = .unrecognized w ∧ unrecognized w

theorem decodesTo_family0 {w : Word} (hf : fieldF w = 0x0#4) : DecodesTo w (decodeFamily0 w) := by
  have hw := encodeAddr_of_family hf
  unfold decodeFamily0
  split
  next hcls => exact ⟨hcls.symm, rfl⟩
  split
  next hret => exact ⟨hret.symm, rfl⟩
  next hcls hret =>
    refine ⟨hw, ?_⟩
    simp only [Instr.wf, Bool.and_eq_true, bne_iff_ne]
    exact ⟨fun e => hcls (by rw [← hw, e]; rfl), fun e => hret (by rw [← hw, e]; rfl)⟩

theorem decodesTo_family5 {w : Word} (hf : fieldF w = 0x5#4) : DecodesTo w (decodeFamily5 w) := by
  unfold decodeFamily5
  split
  next hn => exact ⟨encodeRegReg_of_family hf hn, rfl⟩
  next hn => exact ⟨rfl, .inl ⟨hf, hn⟩⟩

theorem decodesTo_family8 {w : Word} (hf : fieldF w = 0x8#4) : DecodesTo w (decodeFamily8 w) := by
  have hcases := nibble_cases (fieldN w)
  unfold decodeFamily8
  split
  case h_10 =>
    refine ⟨rfl, .inr (.inl ⟨hf, ?_⟩)⟩
    simp_all
  all_goals exact ⟨encodeRegReg_of_family hf ‹_›, rfl⟩

theorem decodesTo_family9 {w : Word} (hf : fieldF w = 0x9#4) : DecodesTo w (decodeFamily9 w) := by
  unfold decodeFamily9
  split
  next hn => exact ⟨encodeRegReg_of_family hf hn, rfl⟩
  next hn => exact ⟨rfl, .inr (.inr (.inl ⟨hf, hn⟩))⟩

theorem decodesTo_familyE {w : Word} (hf : fieldF w = 0xE#4) : DecodesTo w (decodeFamilyE w) := by
  unfold decodeFamilyE
  split
  case h_3 hskp hsknp =>
    exact ⟨rfl, .inr (.inr (.inr (.inl ⟨hf, by simpa using ⟨hskp, hsknp⟩⟩)))⟩
  all_goals exact ⟨encodeReg_of_family hf ‹_›, rfl⟩

theorem decodesTo_familyF {w : Word} (hf : fieldF w = 0xF#4) : DecodesTo w (decodeFamilyF w) := by
  unfold decodeFamilyF
  split
  case h_10 =>
    refine ⟨rfl, .inr (.inr (.inr (.inr ⟨hf, ?_⟩)))⟩
    simp_all
  all_goals exact ⟨encodeReg_of_family hf ‹_›, rfl⟩

/-- All that the decoder can answer. -/
theorem decodesTo_decodeWord (w : Word) : DecodesTo w (decodeWord w) := by
  unfold decodeWord
  split
  case h_1 hf => exact decodesTo_family0 hf
  case h_2 hf | h_3 hf | h_11 hf | h_12 hf => exact ⟨encodeAddr_of_family hf, rfl⟩
  case h_4 hf | h_5 hf | h_7 hf | h_8 hf | h_13 hf => exact ⟨encodeRegImm_of_family hf, rfl⟩
  case h_6 hf => exact decodesTo_family5 hf
  case h_9 hf => exact decodesTo_family8 hf
  case h_10 hf => exact decodesTo_family9 hf
  case h_14 hf => exact ⟨encodeRegReg_of_family hf rfl, rfl⟩
  case h_15 hf => exact decodesTo_familyE hf
  case h_16 =>
    have hcases := nibble_cases (fieldF w)
    exact decodesTo_familyF (by simp_all)

/-- The decoder is the inverse of the encoder on well-formed instructions. -/
theorem decodeWord_eq_ok {w : Word} {i : Instr} :
    decodeWord w = .ok i ↔ encode i = w ∧ i.wf = true := by
  constructor
  · intro h
    have hw := decodesTo_decodeWord w
    rwa [h] at hw
  · rintro ⟨rfl, hi⟩
    exact decodeWord_encode hi

/-- Settles O12: an answered instruction is one of that word. -/
theorem encodeOfDecodeIsTheWord : Obligations.EncodeOfDecodeIsTheWord :=
  fun _ _ h => decodeWord_eq_ok.mp h

/-! ### What the decoder refuses (30_encoding.md R91) -/

/-- The word of an instruction is in none of the five classes. -/
theorem not_unrecognized_encode (i : Instr) : ¬ unrecognized (encode i) := by
  cases i
  case cls | ret =>
    unfold unrecognized
    decide
  all_goals simp [unrecognized, encode]

/-- The words with no instruction are those of the five classes. -/
theorem decodeWord_eq_error {w : Word} :
    decodeWord w = .error (.unrecognized w) ↔ unrecognized w := by
  have hw := decodesTo_decodeWord w
  cases hd : decodeWord w with
  | ok i =>
    obtain ⟨rfl, -⟩ := decodeWord_eq_ok.mp hd
    exact ⟨nofun, fun hu => absurd hu (not_unrecognized_encode i)⟩
  | error e =>
    rw [hd] at hw
    obtain ⟨rfl, hu⟩ := hw
    exact ⟨fun _ => hu, fun _ => rfl⟩

/-- Settles O14: the refused words are those of the five classes, and the decoder answers nothing
but an instruction or that refusal. -/
theorem unrecognizedWordsAreTheListedOnes : Obligations.UnrecognizedWordsAreTheListedOnes := by
  refine fun w => ⟨decodeWord_eq_error, fun hu => ?_⟩
  have hw := decodesTo_decodeWord w
  cases hd : decodeWord w with
  | ok i => exact ⟨i, rfl⟩
  | error e =>
    rw [hd] at hw
    obtain ⟨-, hu'⟩ := hw
    exact absurd hu' hu

/-! ### The pattern table (30_encoding.md R90) -/

/-- A field whose bits the mask fixes is the pattern's. -/
theorem extractLsb'_of_match {w mask bits : Word} {k n : Nat}
    (hmask : mask.extractLsb' k n = BitVec.allOnes n) (h : w &&& mask = bits) :
    w.extractLsb' k n = bits.extractLsb' k n := by
  rw [← h, BitVec.extractLsb'_and, hmask, BitVec.and_allOnes]

theorem fieldF_of_match {w mask bits : Word} (hmask : fieldF mask = 0xF#4)
    (h : w &&& mask = bits) : fieldF w = fieldF bits := extractLsb'_of_match hmask h

theorem fieldN_of_match {w mask bits : Word} (hmask : fieldN mask = 0xF#4)
    (h : w &&& mask = bits) : fieldN w = fieldN bits := extractLsb'_of_match hmask h

/-- A row that fixes the whole word. -/
theorem eq_of_match {w bits : Word} (h : w &&& 0xFFFF#16 = bits) : bits = w :=
  h.symm.trans BitVec.and_allOnes

/-- A row of format `addr`. -/
theorem encodeAddr_of_match {w bits : Word} (h : w &&& 0xF000#16 = bits) :
    encodeAddr (fieldF bits) (fieldNNN w) = w :=
  encodeAddr_of_family (fieldF_of_match rfl h)

/-- A row of format `reg_imm`. -/
theorem encodeRegImm_of_match {w bits : Word} (h : w &&& 0xF000#16 = bits) :
    encodeRegImm (fieldF bits) (fieldX w) (fieldKK w) = w :=
  encodeRegImm_of_family (fieldF_of_match rfl h)

/-- A row of format `reg_reg` or `reg_shift`. -/
theorem encodeRegReg_of_match {w bits : Word} (h : w &&& 0xF00F#16 = bits) :
    encodeRegReg (fieldF bits) (fieldX w) (fieldY w) (fieldN bits) = w :=
  encodeRegReg_of_family (fieldF_of_match rfl h) (fieldN_of_match rfl h)

/-- A word that matches a row is the word of the instruction that the row names. -/
theorem encode_of_row (w : Word) : ∀ r ∈ patternTable, w &&& r.mask = r.bits →
    encode (r.instr w) = w := by
  simp only [patternTable, List.cons_append, List.nil_append, List.forall_mem_cons]
  exact ⟨eq_of_match, eq_of_match, encodeAddr_of_match, encodeAddr_of_match,
    encodeRegImm_of_match, encodeRegImm_of_match, encodeRegReg_of_match, encodeRegImm_of_match,
    encodeRegImm_of_match, encodeRegReg_of_match, encodeRegReg_of_match, encodeRegReg_of_match,
    encodeRegReg_of_match, encodeRegReg_of_match, encodeRegReg_of_match, encodeRegReg_of_match,
    encodeRegReg_of_match, encodeRegReg_of_match, nofun⟩

/-- Every row names an instruction of the subset. -/
theorem implemented_of_row (w : Word) : ∀ r ∈ patternTable,
    (r.instr w).implemented = true := by
  simp [patternTable, Instr.implemented]

/-- The instructions of the subset are well formed: the one check is on SYS. -/
theorem wf_of_implemented {i : Instr} (hi : i.implemented = true) : i.wf = true := by
  cases i <;> cases hi <;> rfl

/-- A word that matches a row decodes to the instruction that the row names. -/
theorem decodeWord_of_row {r : PatternRow} (hr : r ∈ patternTable) {w : Word}
    (h : w &&& r.mask = r.bits) : decodeWord w = .ok (r.instr w) :=
  decodeWord_eq_ok.mpr
    ⟨encode_of_row w r hr h, wf_of_implemented (implemented_of_row w r hr)⟩

/-- The word of an instruction carries the fixed bits of its row. -/
theorem encode_and_maskBits (i : Instr) : encode i &&& maskBits i = matchBits i := by
  cases i
  exacts [Pattern.cls, Pattern.ret, Pattern.jp _, Pattern.call _, Pattern.seImm _ _,
    Pattern.sneImm _ _, Pattern.seReg _ _, Pattern.ldImm _ _, Pattern.addImm _ _,
    Pattern.ldReg _ _, Pattern.orReg _ _, Pattern.andReg _ _, Pattern.xorReg _ _,
    Pattern.addReg _ _, Pattern.subReg _ _, Pattern.shr _ _, Pattern.subnReg _ _,
    Pattern.shl _ _, Pattern.sys _, Pattern.sneReg _ _, Pattern.ldI _, Pattern.jpV0 _,
    Pattern.rnd _ _, Pattern.drw _ _ _, Pattern.skp _, Pattern.sknp _, Pattern.ldVxDt _,
    Pattern.ldVxK _, Pattern.ldDtVx _, Pattern.ldStVx _, Pattern.addI _, Pattern.ldF _,
    Pattern.ldB _, Pattern.ldMemVx _, Pattern.ldVxMem _]

/-- Every instruction of the subset has its row in the table. -/
theorem exists_row {i : Instr} (hi : i.implemented = true) : ∃ r ∈ patternTable,
    r.mask = maskBits i ∧ r.bits = matchBits i ∧ r.instr (encode i) = i := by
  cases i <;> cases hi
  all_goals simp [patternTable, maskBits, matchBits, encode]

/-- Each row names an instruction of its own. -/
theorem patternTable_instr_ne :
    patternTable.Pairwise fun r q => ∀ w : Word, r.instr w ≠ q.instr w := by
  simp [patternTable]

/-- Settles O13: a decoded word is its instruction's, which has a row; a word that matches a row is
its instruction's; and a word that matched two rows would decode to two instructions. -/
theorem dispatchAgreesWithPatternTable : Obligations.DispatchAgreesWithPatternTable := by
  refine ⟨fun w i => ⟨?_, ?_⟩, ?_⟩
  · rintro ⟨hd, hi⟩
    obtain ⟨rfl, -⟩ := decodeWord_eq_ok.mp hd
    obtain ⟨r, hr, hmask, hbits, hinstr⟩ := exists_row hi
    exact ⟨r, hr, by rw [hmask, hbits, encode_and_maskBits], hinstr.symm⟩
  · rintro ⟨r, hr, h, rfl⟩
    exact ⟨decodeWord_of_row hr h, implemented_of_row w r hr⟩
  · refine patternTable_instr_ne.imp_of_mem fun hr hq hne w ⟨hrw, hqw⟩ => hne w ?_
    have hdr := decodeWord_of_row hr hrw
    have hdq := decodeWord_of_row hq hqw
    exact Except.ok.inj (hdr.symm.trans hdq)

/-! ### The fields by mask and shift (30_encoding.md R87) -/

/-- Bits `k` to `k + n - 1` of a word, by the mask of these bits and a shift. -/
theorem zeroExtend_extractLsb' (w : Word) (k n : Nat) : (w.extractLsb' k n).zeroExtend 16 =
    (w &&& ((BitVec.allOnes n).zeroExtend 16 <<< k)) >>> k := by
  ext j hj
  by_cases hk : k + j < 16
  · simp [hk, Bool.and_comm]
  · simp [hk, hj, BitVec.getLsbD_of_ge w (k + j) (Nat.le_of_not_lt hk)]

/-- Settles O15: each field is an extraction of bits, and its mask is that of these bits. -/
theorem fieldsAreMaskedAndShifted : Obligations.FieldsAreMaskedAndShifted := fun w =>
  ⟨zeroExtend_extractLsb' w 12 4, zeroExtend_extractLsb' w 8 4, zeroExtend_extractLsb' w 4 4,
    zeroExtend_extractLsb' w 0 4, zeroExtend_extractLsb' w 0 8, zeroExtend_extractLsb' w 0 12⟩

/-- Settles O16, by running the decoder on each word. -/
theorem wordsDecodeAsWritten : Obligations.WordsDecodeAsWritten :=
  ⟨rfl, rfl, rfl, rfl, rfl, rfl, rfl, rfl, rfl, rfl, rfl, rfl, rfl, rfl, rfl, rfl, rfl, rfl, rfl,
    rfl, rfl⟩

end Sys2Proof.Machine
end

section
/-! SUPPORT. The texts of spec/30_encoding.md R95: the model's are those of the table, and each
spells one word. -/

namespace Sys2Proof.Machine

open Sys2Proof.Spec Sys2Proof.Laws

/-! ### The texts of R95's table -/

theorem hexDigit_eq_digit (a : Nibble) : hexDigit a = digit a.toNat := by
  obtain ⟨x⟩ := a
  revert x
  decide

theorem regText_eq_regName : ∀ x : Reg, regText x = regName x := by decide

theorem byteText_eq_hex2 (kk : Byte) : byteText kk = hex2 kk := by
  have hhi : kk.toNat >>> 4 % 2 ^ 4 = kk.toNat / 16 := by
    rw [Nat.shiftRight_eq_div_pow]
    omega
  simp only [byteText, hex2, hexDigit_eq_digit, BitVec.extractLsb'_toNat, hhi, Nat.shiftRight_zero]

theorem addrText_eq_hex3 (nnn : Addr) : addrText nnn = hex3 nnn := by
  have hhi : nnn.toNat >>> 8 % 2 ^ 4 = nnn.toNat / 256 := by
    rw [Nat.shiftRight_eq_div_pow]
    omega
  simp only [addrText, hex3, hexDigit_eq_digit, BitVec.extractLsb'_toNat, hhi,
    Nat.shiftRight_eq_div_pow nnn.toNat 4, Nat.shiftRight_zero]

/-- The model's text is that of the table, row by row. -/
theorem disassemble_eq_syntaxText (i : Instr) : disassemble i = syntaxText i := by
  cases i <;>
    simp only [disassemble, syntaxText, regText_eq_regName, byteText_eq_hex2, addrText_eq_hex3]

/-- Only an instruction of the subset has a text. -/
theorem implemented_of_disassemble {i : Instr} {t : String} (h : disassemble i = some t) :
    i.implemented = true := by
  cases hi : i.implemented with
  | true => rfl
  | false => cases i <;> cases hi <;> cases h

/-- An instruction's text spells its own word alone: texts are injective, with Y = 0 for the
shifts. -/
theorem spells_text_iff {i : Instr} {t : String} (h : disassemble i = some t) (w : Word) :
    spells t.toList w = true ↔ w = encode (reassembled i) := by
  rw [spells_iff]
  constructor
  · rintro ⟨j, u, hd, hj, hu, hut⟩
    have hij : reassembled i = j := (disassemble_injective h hu hut.symm).trans hj
    rw [hij]
    exact (decodeWord_eq_ok.mp hd).1.symm
  · rintro rfl
    have ht : disassemble (reassembled i) = some t := (disassemble_reassembled i).trans h
    have hwf := wf_of_implemented (implemented_of_disassemble ht)
    exact ⟨reassembled i, t, decodeWord_encode hwf, reassembled_idem i, ht, rfl⟩

theorem reassembled_of_ne_shift {i : Instr} (h : ∀ x y, i ≠ .shr x y ∧ i ≠ .shl x y) :
    reassembled i = i := by
  cases i
  case shr x y => exact absurd rfl (h x y).1
  case shl x y => exact absurd rfl (h x y).2
  all_goals rfl

/-- Settles O17: the table row by row, the one word that a text spells, and the search that finds
it. -/
theorem textSpellsTheWord : Obligations.TextSpellsTheWord := by
  refine ⟨disassemble_eq_syntaxText, fun i t h => ⟨spells_text_iff h, ?_⟩,
    fun _ _ => ⟨rfl, rfl⟩, fun _ => reassembled_of_ne_shift⟩
  exact assemble_of_unique (dropCommaSpaces_text h) (spells_text_iff h)

end Sys2Proof.Machine
end

section
/-! SUPPORT. The cycle of spec/30_encoding.md R84 around a decoded instruction: its fetch range,
what a handler may write, the instructions outside the subset, and what the host sees of it. -/

namespace Sys2Proof.Machine

/-! ### The instructions outside the subset (30_encoding.md R92) -/

/-- An instruction outside the subset records UnimplementedOpcode with its own word, and changes
nothing else. -/
theorem exec_unimplemented {i : Instr} (hi : i.implemented = false) (s : State) :
    exec i s = .next
      { s with fault := some ⟨.unimplementedOpcode, s.pc - 2, some (encode i)⟩ } := by
  obtain ⟨h, -⟩ | ⟨h, -⟩ | ⟨-, h⟩ := exec_cases i s
  · rw [hi] at h; cases h
  · rw [hi] at h; cases h
  · exact h

/-- Settles O39: all 17 are outside the subset, and `encode` gives the words written here. -/
theorem unimplementedInstructionsRaiseTheirFault :
    Obligations.UnimplementedInstructionsRaiseTheirFault := by
  intro s nnn x y kk n
  have h {i : Instr} (hi : i.implemented = false) := exec_unimplemented hi s
  exact ⟨h rfl, h rfl, h rfl, h rfl, h rfl, h rfl, h rfl, h rfl, h rfl, h rfl, h rfl, h rfl,
    h rfl, h rfl, h rfl, h rfl, h rfl⟩

/-- Settles O42: the record alone is written. -/
theorem unimplementedInstructionsFrame : Obligations.UnimplementedInstructionsFrame := by
  intro i s t hi h
  cases exec_unique h (exec_unimplemented hi s)
  exact ⟨fun _ => rfl, fun _ => rfl, rfl, rfl, rfl, rfl, rfl, rfl, rfl, rfl, rfl⟩

/-! ### The outputs of a meaning, and `opcode` (30_encoding.md R98) -/

/-- A meaning that changes `fault` changes nothing else. -/
theorem exec_fault_only {i : Instr} {s t : State} (h : exec i s = .next t)
    (hf : t.fault ≠ s.fault) : t = { s with fault := t.fault } := by
  obtain ⟨-, V, pc, sp, stack, fb, hu⟩ | ⟨-, c, -, hu⟩ | ⟨-, hu⟩ := exec_cases i s
  · cases exec_unique h hu
    exact absurd rfl hf
  · cases exec_unique h hu
    rfl
  · cases exec_unique h hu
    rfl

/-- A meaning neither reads nor writes `opcode`. -/
theorem exec_any_opcode {i : Instr} {s t : State} (h : exec i s = .next t) (w : Word) :
    exec i { s with opcode := w } = .next { t with opcode := w } := by
  cases i
  case ret =>
    obtain h0 | ⟨k, hk⟩ := sp_empty_or_top s
    · cases exec_unique h (exec_ret_of_empty h0)
      exact exec_ret_of_empty (s := { s with opcode := w }) h0
    · cases exec_unique h (exec_ret_of_pos k hk)
      exact exec_ret_of_pos (s := { s with opcode := w }) k hk
  case call nnn =>
    obtain h16 | ⟨k, hk⟩ := sp_full_or_free s
    · cases exec_unique h (exec_call_of_full nnn h16)
      exact exec_call_of_full (s := { s with opcode := w }) nnn h16
    · cases exec_unique h (exec_call_of_lt nnn k hk)
      exact exec_call_of_lt (s := { s with opcode := w }) nnn k hk
  case seImm | sneImm | seReg =>
    cases exec_unique h (exec_of_skipCondition rfl)
    rw [exec_of_skipCondition rfl, skipIf_eq, skipIf_eq]
    rfl
  all_goals
    cases exec_unique h rfl
    rfl

/-- Settles O44: the outputs of a meaning, a raised fault, and another `opcode`. -/
theorem handlersWriteOnlyTheirOutputs : Obligations.HandlersWriteOnlyTheirOutputs :=
  fun _ _ _ h => ⟨exec_outputs h, exec_fault_only h, exec_any_opcode h⟩

/-! ### The cycle (30_encoding.md R84 to R86) -/

/-- Settles O6, by the range of a fetch. -/
theorem fetchBeyondMemoryFaults : Obligations.FetchBeyondMemoryFaults :=
  fun _ hs => ⟨fun hpc => ⟨_, fetchWord_eq_some.mpr ⟨hpc, rfl⟩⟩,
    fun hpc => step_fetch_fault hs (fetchWord_eq_none.mpr hpc)⟩

/-- Settles O18: the decoded instruction's meaning answers a next state, which ends the cycle. -/
theorem stepRunsTheDecodedInstruction : Obligations.StepRunsTheDecodedInstruction := by
  intro s w i hs hw hd
  obtain ⟨hadd, hle⟩ := advance_toNat hw
  obtain ⟨t, ht⟩ := exec_answers_next i (beginCycle w s)
  have hstep : step s = endCycle s (.next t) := ht ▸ step_decoded hs hw hd
  exact ⟨hadd, hle, t, ht, fun hf => hstep.trans (endCycle_completed hf),
    fun r hf => hstep.trans (endCycle_raised hf)⟩

/-! ### What `Cycle` returns (30_encoding.md R84, 60_exceptions.md R166) -/

theorem Block.cycle_completed {b : Block} {t : State} (h : step b.state = .next t)
    (hf : t.fault = none) : b.cycle = ({ state := t, phase := .running }, .ok) := by
  simp only [Block.cycle, h, hf]

theorem Block.cycle_faulted {b : Block} {t : State} {r : FaultRecord}
    (h : step b.state = .next t) (hf : t.fault = some r) :
    b.cycle = ({ state := t, phase := .running }, .faulted r) := by
  simp only [Block.cycle, h, hf]

/-- Settles O56: a running block has a step, and `Cycle` returns by the fault it leaves. -/
theorem cycleReturnsOkOrTheRecord : Obligations.CycleReturnsOkOrTheRecord := by
  refine ⟨fun b hb => ?_, fun _ => rfl⟩
  obtain ⟨t, ht⟩ := step_answers_next hb
  exact ⟨t, ht, Block.cycle_completed ht, fun _ => Block.cycle_faulted ht⟩

end Sys2Proof.Machine
end

section
/-! SUPPORT. Screen clear and control transfer (spec/40_flow.md): the meanings of CLS, RET, JP and
CALL, and the return of a CALL's later RET over whole cycles. -/

namespace Sys2Proof.Machine

/-! ### The meanings (40_flow.md R110 to R113) -/

/-- Settles O22: CLS replaces the framebuffer by one with every cell off. -/
theorem clsTurnsEveryCellOff : Obligations.ClsTurnsEveryCellOff := fun s =>
  ⟨clearFramebuffer s, rfl, fun _ => by simp, rfl⟩

/-- Settles O23, by the stack pointer: a top entry or none. -/
theorem retPopsTheReturnAddress : Obligations.RetPopsTheReturnAddress := fun _ =>
  ⟨exec_ret_of_pos, exec_ret_of_empty⟩

/-- The zero extension of 30_encoding.md R83 keeps the address's value. -/
theorem addrOperand_eq_ofNat (nnn : Addr) : addrOperand nnn = BitVec.ofNat 16 nnn.toNat :=
  (BitVec.ofNat_toNat 16 nnn).symm

/-- Settles O24: JP loads the extended address. -/
theorem jpLoadsTheAddress : Obligations.JpLoadsTheAddress := fun s nnn => by
  rw [← addrOperand_eq_ofNat]
  rfl

/-- Settles O25, by the stack pointer: a free slot or none. -/
theorem callPushesTheReturnAddress : Obligations.CallPushesTheReturnAddress := fun s nnn => by
  rw [← addrOperand_eq_ofNat]
  exact ⟨exec_call_of_lt nnn, exec_call_of_full nnn⟩

/-! ### Whole cycles (40_flow.md R114) -/

/-- A cycle whose instruction's meaning raises no fault ends in that meaning's state. -/
theorem step_of_exec_running {s t : State} {i : Instr} (hs : s.Running) (hi : i.wf = true)
    (hw : fetchWord s = some (encode i)) (he : exec i (beginCycle (encode i) s) = .next t)
    (ht : t.Running) : step s = .next t := by
  rw [step_decoded hs hw (decodeWord_encode hi), he]
  exact endCycle_completed ht

/-- The cycle of a CALL pushes `p + 2` and counts the stack pointer up. -/
theorem step_call {s : State} {nnn : Addr} {k : Fin 16} (hs : s.Running) (hk : s.sp.val = k.val)
    (hw : fetchWord s = some (encode (.call nnn))) : step s = .next
      { s with stack := s.stack.set k (s.pc + 2), sp := k.succ, pc := addrOperand nnn,
               opcode := encode (.call nnn) } :=
  step_of_exec_running hs rfl hw (exec_call_of_lt (s := beginCycle _ s) nnn k hk) hs

/-- The cycle of a RET jumps to the top entry and counts the stack pointer down. -/
theorem step_ret {s : State} {k : Fin 16} (hs : s.Running) (hk : s.sp.val = k.val + 1)
    (hw : fetchWord s = some (encode .ret)) : step s = .next
      { s with sp := k.castSucc, pc := s.stack[k], opcode := encode .ret } :=
  step_of_exec_running hs rfl hw (exec_ret_of_pos (s := beginCycle _ s) k hk) hs

/-- Settles O26: the entry that the CALL pushed at its slot `k` is the one that the RET pops. -/
theorem callThenRetReturns : Obligations.CallThenRetReturns := by
  intro s t u nnn hs hlt hcall hst hu hsp htop hret
  obtain ⟨k, hk⟩ : ∃ k : Fin 16, s.sp.val = k.val := ⟨⟨s.sp.val, hlt⟩, rfl⟩
  cases Host.Outcome.next.inj (hst.symm.trans (step_call hs hk hcall))
  have hpos : u.sp.val = k.val + 1 := by rw [hsp]; rfl
  have hpushed : u.stack[k] = s.pc + 2 := by
    rw [htop k hk.symm]
    simp
  exact ⟨_, step_ret hu hpos hret, hu, hpushed, Fin.ext hk.symm⟩

end Sys2Proof.Machine
end

section
/-! SUPPORT. Conditional skips (spec/41_skip.md): the meanings of the three, and the whole cycle of
a skip. -/

namespace Sys2Proof.Machine

open Sys2Proof.Spec

/-! ### The whole cycle (41_skip.md R120, R124) -/

/-- The cycle of a skip completes and writes `pc` and `opcode` alone: it needs the word at pc and
the condition, and neither fetches nor decodes the word it skips. -/
theorem step_skip {s : State} {w : Word} {i : Instr} {c : Bool} (hs : s.Running)
    (hw : fetchWord s = some w) (hd : decodeWord w = .ok i) (hc : skipCondition i s = some c) :
    step s = .next { s with pc := if c then s.pc + 4 else s.pc + 2, opcode := w } := by
  have hc' : skipCondition i (beginCycle w s) = some c :=
    (skipCondition_congr fun _ _ => rfl).trans hc
  have hpc : (if c then s.pc + 2 + 2 else s.pc + 2) = if c then s.pc + 4 else s.pc + 2 := by
    rw [BitVec.add_assoc]
    rfl
  rw [step_decoded hs hw hd, exec_of_skipCondition hc', skipIf_eq, ← hpc]
  exact endCycle_completed hs

/-- A skip from a pc that fetches does not wrap, and ends at 0x1002 at most. -/
theorem skip_pc_toNat {s : State} {w : Word} (hw : fetchWord s = some w) (c : Bool) :
    (if c then s.pc + 4 else s.pc + 2).toNat = s.pc.toNat + (if c then 4 else 2) ∧
      (if c then s.pc + 4 else s.pc + 2).toNat ≤ 0x1002 := by
  obtain ⟨hadd, hle⟩ := advance_toNat hw
  cases c with
  | false => exact ⟨hadd, hadd.trans_le (by omega)⟩
  | true =>
    have hadd4 : (s.pc + 4).toNat = s.pc.toNat + 4 := by bv_omega
    exact ⟨hadd4, hadd4.trans_le (by omega)⟩

/-- Settles O29: `step_skip` in the state and in the one with the other memory, where the
condition, which reads registers alone, is the same. -/
theorem skipAdvancesByFourOrTwo : Obligations.SkipAdvancesByFourOrTwo := by
  intro s m w i c hs hw hwm hd hc
  have hcm : skipCondition i { s with memory := m } = some c :=
    (skipCondition_congr fun _ _ => rfl).trans hc
  obtain ⟨hadd, hle⟩ := skip_pc_toNat hw c
  exact ⟨_, step_skip hs hw hd hc, rfl, hadd, hle,
    step_skip (s := { s with memory := m }) hs hwm hd hcm⟩

/-! ### The meanings (41_skip.md R121 to R123) -/

/-- Settles O28: each skip by its condition, a Boolean comparison of its operands. -/
theorem skipsCompareAndSkip : Obligations.SkipsCompareAndSkip := by
  intro s x y kk
  have hskip {i : Instr} {c : Bool} (hc : skipCondition i s = some c) :
      exec i s = .next { s with pc := if c then s.pc + 2 else s.pc } := by
    rw [exec_of_skipCondition hc, skipIf_eq]
  refine ⟨?_, ?_, ?_⟩
  · simpa only [beq_iff_eq] using hskip (i := .seImm x kk) rfl
  · simpa only [bne_iff_ne, ite_not] using hskip (i := .sneImm x kk) rfl
  · simpa only [beq_iff_eq] using hskip (i := .seReg x y) rfl

end Sys2Proof.Machine
end

section
/-! SUPPORT. Register-immediate operations (spec/42_immediate.md): the meanings of LD Vx,byte and
ADD Vx,byte, each one register write, and their whole cycles. -/

namespace Sys2Proof.Machine

open Sys2Proof.Spec

/-! ### The meanings (42_immediate.md R130, R131) -/

theorem exec_ldImm (s : State) (x : Reg) (kk : Byte) :
    exec (.ldImm x kk) s = .next (s.setReg x kk) := rfl

theorem exec_addImm (s : State) (x : Reg) (kk : Byte) :
    exec (.addImm x kk) s = .next (s.setReg x (s.reg x + kk)) := rfl

/-- A register write changes nothing but the general registers. -/
theorem sameButRegisters_setReg (s : State) (x : Reg) (v : Byte) :
    SameButRegisters s (s.setReg x v) := State.setReg_eq s x v

/-! ### Whole cycles -/

/-- The cycle of an instruction whose meaning is one register write completes with that write on
the advanced state. -/
theorem step_of_exec_setReg {s : State} {i : Instr} {x : Reg} {v : Byte} (hs : s.Running)
    (hi : i.wf = true) (hw : fetchWord s = some (encode i))
    (he : exec i (beginCycle (encode i) s) = .next ((beginCycle (encode i) s).setReg x v)) :
    ∃ t, step s = .next t ∧ t.Running ∧ t.reg x = v ∧ t.pc = s.pc + 2 :=
  ⟨_, step_of_exec_running hs hi hw he hs, hs, State.reg_setReg_self _ x v, rfl⟩

/-! ### The obligations of the family -/

/-- Settles O30: LD writes its byte, and its cycle ends in that write. -/
theorem loadImmediateSetsTheRegister : Obligations.LoadImmediateSetsTheRegister := by
  intro s x kk
  have hdecode := decodeWord_encode (i := .ldImm x kk) rfl
  exact ⟨hdecode, rfl, rfl, rfl,
    ⟨_, exec_ldImm s x kk, sameButRegisters_setReg s x kk, fun r => State.reg_setReg s x r kk⟩,
    fun hs hw => step_of_exec_setReg hs rfl hw (exec_ldImm _ x kk)⟩

/-- Settles O31: ADD writes the sum of two bytes, which `BitVec` addition takes modulo 256, in
every state and in the advanced state of its cycle, where Vx is as before. -/
theorem addImmediateWrapsWithoutFlag : Obligations.AddImmediateWrapsWithoutFlag := by
  intro s x kk
  have hdecode := decodeWord_encode (i := .addImm x kk) rfl
  have hsum : (s.reg x + kk).toNat = ((s.reg x).toNat + kk.toNat) % 256 :=
    BitVec.toNat_add (s.reg x) kk
  refine ⟨hdecode, rfl, rfl, rfl,
    ⟨_, exec_addImm s x kk, sameButRegisters_setReg s x _, ?_, ?_⟩, fun hs hw => ?_⟩
  · rw [State.reg_setReg_self, hsum]
  · exact fun r hr => State.reg_setReg_of_ne s _ hr
  · obtain ⟨t, hstep, ht, hreg, hpc⟩ := step_of_exec_setReg hs rfl hw (exec_addImm _ x kk)
    rw [beginCycle_reg] at hreg
    exact ⟨t, hstep, ht, hpc, by rw [hreg, hsum]⟩

end Sys2Proof.Machine
end

section
/-! SUPPORT. Register-register operations (spec/43_register_alu.md): LD and the three logical
operations, each one register write, and the five flag-setting operations, each the write of V15
and then that of Vx. -/

namespace Sys2Proof.Machine

open Sys2Proof.Spec

/-! ### The meanings with one register write (43_register_alu.md R141 to R144) -/

theorem exec_ldReg (s : State) (x y : Reg) :
    exec (.ldReg x y) s = .next (s.setReg x (s.reg y)) := rfl

theorem exec_orReg (s : State) (x y : Reg) :
    exec (.orReg x y) s = .next (s.setReg x (s.reg x ||| s.reg y)) := rfl

theorem exec_andReg (s : State) (x y : Reg) :
    exec (.andReg x y) s = .next (s.setReg x (s.reg x &&& s.reg y)) := rfl

theorem exec_xorReg (s : State) (x y : Reg) :
    exec (.xorReg x y) s = .next (s.setReg x (s.reg x ^^^ s.reg y)) := rfl

/-- A meaning that is one register write completes, and every other register and field is as
before. -/
theorem writesOnly_of_exec_setReg {i : Instr} {s : State} {x : Reg} {v : Byte}
    (he : exec i s = .next (s.setReg x v)) : ∃ t, exec i s = .next t ∧ SameButRegisters s t ∧
      ∀ r, t.reg r = if r = x then v else s.reg r :=
  ⟨_, he, sameButRegisters_setReg s x v, fun r => State.reg_setReg s x r v⟩

/-! ### The write of V15 and then of Vx (43_register_alu.md R140) -/

theorem sameButRegisters_setFlag_setReg (s : State) (x : Reg) (f v : Byte) :
    SameButRegisters s ((s.setReg 15 f).setReg x v) := rfl

/-- The flag stands unless the write of Vx replaces it. -/
theorem reg_flag_setFlag_setReg (s : State) {x : Reg} (f v : Byte) (hx : x ≠ 15) :
    ((s.setReg 15 f).setReg x v).reg 15 = f := by
  rw [State.reg_setReg_of_ne _ v hx.symm, State.reg_setReg_self]

theorem reg_setFlag_setReg_of_ne (s : State) {x r : Reg} (f v : Byte) (hx : r ≠ x)
    (hflag : r ≠ 15) : ((s.setReg 15 f).setReg x v).reg r = s.reg r := by
  rw [State.reg_setReg_of_ne _ v hx, State.reg_setReg_of_ne s f hflag]

/-- SUB and SUBN, by the difference `op` that they take of Vx and Vy after the write of the flag:
in it V15 reads as the flag and any other register as before (43_register_alu.md R146, R148). -/
theorem differenceAfterFlag_of_exec {i : Instr} {s : State} {x y : Reg} {f : Byte}
    {op : Byte → Byte → Byte}
    (he : exec i s = .next ((s.setReg 15 f).setReg x
      (op ((s.setReg 15 f).reg x) ((s.setReg 15 f).reg y))))
    (hop : ∀ a, op a a = 0) (hf : x = y → f = 0) :
    ∃ t, exec i s = .next t ∧ SameButRegisters s t ∧
      (∀ r, r ≠ x → r ≠ 15 → t.reg r = s.reg r) ∧
      (x ≠ 15 → y ≠ 15 → t.reg 15 = f ∧ t.reg x = op (s.reg x) (s.reg y)) ∧
      (x = 15 → y ≠ 15 → t.reg 15 = op f (s.reg y)) ∧
      (x ≠ 15 → y = 15 → t.reg 15 = f ∧ t.reg x = op (s.reg x) f) ∧
      (x = 15 → y = 15 → t.reg 15 = 0) ∧
      (x = y → x ≠ 15 → t.reg 15 = 0 ∧ t.reg x = 0) := by
  refine ⟨_, he, sameButRegisters_setFlag_setReg s x _ _,
    fun r => reg_setFlag_setReg_of_ne s _ _, ?_, ?_, ?_, ?_, ?_⟩
  · intro hx hy
    refine ⟨reg_flag_setFlag_setReg s _ _ hx, ?_⟩
    rw [State.reg_setReg_self, State.reg_setReg_of_ne s f hx, State.reg_setReg_of_ne s f hy]
  · rintro rfl hy
    rw [State.reg_setReg_self, State.reg_setReg_self, State.reg_setReg_of_ne s f hy]
  · rintro hx rfl
    refine ⟨reg_flag_setFlag_setReg s _ _ hx, ?_⟩
    rw [State.reg_setReg_self, State.reg_setReg_self, State.reg_setReg_of_ne s f hx]
  · rintro rfl rfl
    rw [State.reg_setReg_self, hop]
  · rintro rfl hx
    rw [reg_flag_setFlag_setReg s _ _ hx, State.reg_setReg_self, hop]
    exact ⟨hf rfl, rfl⟩

/-! ### The flag values (10_state.md R29) -/

/-- The flag of SUB and SUBN on equal operands. -/
theorem bit_gt_self (n : Nat) : bit (n > n) = 0 := if_neg (lt_irrefl n)

theorem bit_ushiftRight_one (c : Prop) [Decidable c] : bit c >>> 1 = 0 := by
  unfold bit
  split <;> rfl

theorem bit_shiftLeft_one (c : Prop) [Decidable c] : bit c <<< 1 = if c then 2 else 0 := by
  unfold bit
  split <;> rfl

/-- The flag that copies bit `i` has that bit's value. -/
theorem toNat_bit_getLsbD (a : Byte) (i : Nat) :
    (bit (a.getLsbD i = true)).toNat = a.toNat / 2 ^ i % 2 := by
  rw [← Nat.toNat_testBit]
  unfold bit BitVec.getLsbD
  cases a.toNat.testBit i <;> rfl

/-- Bit 7 of a byte is set in the upper half of its range. -/
theorem getLsbD_seven_iff (a : Byte) : a.getLsbD 7 = true ↔ a.toNat ≥ 128 := by
  have hmsb : a.getLsbD 7 = decide (128 ≤ a.toNat) := BitVec.msb_eq_decide a
  rw [hmsb, decide_eq_true_iff]

/-! ### The obligations of the family -/

/-- Settles O33: the sum is of the values before, which `BitVec` addition takes modulo 256. -/
theorem addTakesItsSumFirst : Obligations.AddTakesItsSumFirst := by
  intro s x y
  refine ⟨_, exec_addReg s x y, sameButRegisters_setFlag_setReg s x _ _, ?_,
    reg_flag_setFlag_setReg s _ _, fun r => reg_setFlag_setReg_of_ne s _ _⟩
  rw [State.reg_setReg_self]
  exact BitVec.toNat_add (s.reg x) (s.reg y)

/-- Settles O34: the difference of Vx and Vy. -/
theorem subSubtractsAfterTheFlag : Obligations.SubSubtractsAfterTheFlag := fun s x y =>
  differenceAfterFlag_of_exec (op := fun a b => a - b) (exec_subReg s x y)
    BitVec.sub_self (by rintro rfl; exact bit_gt_self _)

/-- Settles O35: the difference of Vy and Vx. -/
theorem subnSubtractsAfterTheFlag : Obligations.SubnSubtractsAfterTheFlag := fun s x y =>
  differenceAfterFlag_of_exec (op := fun a b => b - a) (exec_subnReg s x y)
    BitVec.sub_self (by rintro rfl; exact bit_gt_self _)

/-- Settles O36: the flag is bit 0; with X = 15 it is the flag, 0 or 1, that is shifted out. -/
theorem shrShiftsAfterTheFlag : Obligations.ShrShiftsAfterTheFlag := by
  intro s x y
  refine ⟨_, exec_shr s x y, exec_shr s x, sameButRegisters_setFlag_setReg s x _ _,
    fun r => reg_setFlag_setReg_of_ne s _ _, ?_, ?_⟩
  · intro hx
    rw [reg_flag_setFlag_setReg s _ _ hx, State.reg_setReg_self, State.reg_setReg_of_ne s _ hx]
    exact ⟨by simpa using toNat_bit_getLsbD (s.reg x) 0, BitVec.toNat_ushiftRight _ _⟩
  · rintro rfl
    rw [State.reg_setReg_self, State.reg_setReg_self, bit_ushiftRight_one]

/-- Settles O37: the flag is bit 7; with X = 15 it is the flag, 0 or 1, that is doubled. -/
theorem shlShiftsAfterTheFlag : Obligations.ShlShiftsAfterTheFlag := by
  intro s x y
  refine ⟨_, exec_shl s x y, exec_shl s x, sameButRegisters_setFlag_setReg s x _ _,
    fun r => reg_setFlag_setReg_of_ne s _ _, ?_, ?_⟩
  · intro hx
    rw [reg_flag_setFlag_setReg s _ _ hx, State.reg_setReg_self, State.reg_setReg_of_ne s _ hx]
    have hbit := toNat_bit_getLsbD (s.reg x) 7
    have hdouble : (s.reg x <<< 1).toNat = (s.reg x).toNat <<< 1 % 256 :=
      BitVec.toNat_shiftLeft
    exact ⟨by omega, by rw [hdouble, Nat.shiftLeft_eq]⟩
  · rintro rfl
    rw [State.reg_setReg_self, State.reg_setReg_self, bit_shiftLeft_one]
    simp only [getLsbD_seven_iff]

/-- Settles O32: each of the four is one write of Vx. -/
theorem copyAndLogicWriteOnlyVx : Obligations.CopyAndLogicWriteOnlyVx := fun s x y =>
  ⟨writesOnly_of_exec_setReg (exec_ldReg s x y), writesOnly_of_exec_setReg (exec_orReg s x y),
    writesOnly_of_exec_setReg (exec_andReg s x y), writesOnly_of_exec_setReg (exec_xorReg s x y)⟩

end Sys2Proof.Machine
end

section
/-! SUPPORT. Faults and devices (spec/60_exceptions.md): which fault a cycle raises and what it
leaves, what the host sees of a recorded fault, that no cycle touches the timers, the keys or
`index`, and the host's operations on them. -/

namespace Sys2Proof.Machine

open Sys2Proof.Spec

/-! ### The fault of a cycle (60_exceptions.md R161 to R167) -/

theorem expectedFault_of_fetch_none {s : State} (hw : fetchWord s = none) :
    expectedFault s = some ⟨.fetchOutOfRange, s.pc, none⟩ := by
  simp only [expectedFault, hw]

theorem expectedFault_of_decode_error {s : State} {w : Word} {e : DecodeError}
    (hw : fetchWord s = some w) (hd : decodeWord w = .error e) :
    expectedFault s = some ⟨.unrecognizedOpcode, s.pc, some w⟩ := by
  simp only [expectedFault, hw, hd]

theorem expectedFault_of_unimplemented {s : State} {w : Word} {i : Instr}
    (hw : fetchWord s = some w) (hd : decodeWord w = .ok i) (hi : i.implemented = false) :
    expectedFault s = some ⟨.unimplementedOpcode, s.pc, some w⟩ := by
  simp only [expectedFault, hw, hd, hi, if_true]

/-- A record that the table gives holds the pc and the word of the cycle's start (R164). -/
theorem expectedFault_record {s : State} {r : FaultRecord} (h : expectedFault s = some r) :
    r.faultPc = s.pc ∧ r.word = fetchWord s ∧ (r.cause = .fetchOutOfRange ↔ r.word = none) := by
  cases hw : fetchWord s with
  | none =>
    cases (expectedFault_of_fetch_none hw).symm.trans h
    exact ⟨rfl, rfl, fun _ => rfl, fun _ => rfl⟩
  | some w =>
    have hword {c : FaultCause} (he : some ⟨c, s.pc, some w⟩ = some r) (hc : c ≠ .fetchOutOfRange) :
        r.faultPc = s.pc ∧ r.word = some w ∧ (r.cause = .fetchOutOfRange ↔ r.word = none) := by
      cases he
      exact ⟨rfl, rfl, fun e => absurd e hc, nofun⟩
    cases hd : decodeWord w with
    | error e => exact hword ((expectedFault_of_decode_error hw hd).symm.trans h) nofun
    | ok i =>
      cases hi : i.implemented with
      | false => exact hword ((expectedFault_of_unimplemented hw hd hi).symm.trans h) nofun
      | true =>
        simp only [expectedFault, hw, hd, hi, reduceCtorEq, if_false] at h
        split at h
        case h_1 | h_2 =>
          obtain ⟨-, he⟩ := Option.ite_none_right_eq_some.mp h
          exact hword he nofun
        case h_3 => cases h

/-- The meaning of the decoded instruction, on the advanced state, records what the table gives
for the cycle. -/
theorem exec_beginCycle_fault {s t : State} {w : Word} {i : Instr} (hs : s.Running)
    (hw : fetchWord s = some w) (hd : decodeWord w = .ok i)
    (h : exec i (beginCycle w s) = .next t) : t.fault = expectedFault s := by
  have hword : encode i = w := (decodeWord_eq_ok.mp hd).1
  cases hi : i.implemented with
  | false =>
    cases exec_unique h (exec_unimplemented hi _)
    rw [expectedFault_of_unimplemented hw hd hi, beginCycle_pc,
      BitVec.add_sub_cancel, hword]
  | true =>
    simp only [expectedFault, hw, hd, hi]
    cases i
    case ret =>
      obtain h0 | ⟨k, hk⟩ := sp_empty_or_top s
      · cases exec_unique h (exec_ret_of_empty (s := beginCycle w s) h0)
        simp [h0, hword]
      · cases exec_unique h (exec_ret_of_pos (s := beginCycle w s) k hk)
        simpa [hk] using hs
    case call nnn =>
      obtain h16 | ⟨k, hk⟩ := sp_full_or_free s
      · cases exec_unique h (exec_call_of_full (s := beginCycle w s) nnn h16)
        simp [h16, hword]
      · cases exec_unique h (exec_call_of_lt (s := beginCycle w s) nnn k hk)
        simpa [hk, k.isLt.ne] using hs
    case seImm | sneImm | seReg =>
      cases exec_unique h (exec_of_skipCondition rfl)
      rw [skipIf_eq]
      exact hs
    case cls | jp | ldImm | addImm | ldReg | orReg | andReg | xorReg | addReg | subReg | shr |
        subnReg | shl =>
      cases exec_unique h rfl
      exact hs
    all_goals cases hi

/-- The fault after a step is the one that the table gives. -/
theorem step_fault {s t : State} (h : step s = .next t) : t.fault = expectedFault s := by
  obtain ⟨hs, ⟨hw, rfl⟩ | ⟨w, e, hw, hd, rfl⟩ | ⟨w, i, hw, hd, he, -⟩ |
    ⟨w, i, u, r, hw, hd, he, hr, rfl⟩⟩ := step_cases h
  · exact (expectedFault_of_fetch_none hw).symm
  · exact (expectedFault_of_decode_error hw hd).symm
  · exact exec_beginCycle_fault hs hw hd he
  · exact hr.symm.trans (exec_beginCycle_fault hs hw hd he)

/-- A step that ends with a fault writes the record alone (R163). -/
theorem step_faulted_frame {s t : State} {r : FaultRecord} (h : step s = .next t)
    (hr : t.fault = some r) : t = { s with fault := some r } := by
  obtain ⟨-, ⟨-, rfl⟩ | ⟨w, e, -, -, rfl⟩ | ⟨w, i, -, -, -, ht⟩ |
    ⟨w, i, u, r', -, -, -, -, rfl⟩⟩ := step_cases h
  · rw [← hr]
  · rw [← hr]
  · cases ht.symm.trans hr
  · rw [← hr]

/-- Settles O19: a recorded fault has no step, and every other state has one. -/
theorem onlyARecordedFaultStopsTheEngine : Obligations.OnlyARecordedFaultStopsTheEngine :=
  fun _ => ⟨fun _ => step_halted, step_answers_next⟩

/-- Settles O20: the faulting step writes the record alone, and the record is one of the table. -/
theorem faultsArePrecise : Obligations.FaultsArePrecise := fun _ _ _ _ h hr =>
  ⟨step_faulted_frame h hr, expectedFault_record ((step_fault h).symm.trans hr)⟩

/-- Settles O21: `step_fault`, and the codes. -/
theorem everyCycleRaisesExactlyTheExpectedFault :
    Obligations.EveryCycleRaisesExactlyTheExpectedFault :=
  ⟨fun _ _ _ => step_fault, rfl, rfl, rfl, rfl, rfl⟩

/-! ### The timers, the keys and `index` (60_exceptions.md R173, R174, R179) -/

/-- The state with other values of the four fields that no cycle reads or writes. -/
def State.withDevices (s : State) (delay sound : Byte) (keys : Vector Bool 16) (index : Word) :
    State :=
  { s with delayTimer := delay, soundTimer := sound, keypad := keys, index := index }

section
variable {s t : State} (d e : Byte) (k : Vector Bool 16) (x : Word)

theorem beginCycle_withDevices (w : Word) :
    beginCycle w (s.withDevices d e k x) = (beginCycle w s).withDevices d e k x := rfl

/-- A meaning does the same with any values of the four fields. -/
theorem exec_withDevices {i : Instr} (h : exec i s = .next t) :
    exec i (s.withDevices d e k x) = .next (t.withDevices d e k x) := by
  cases i
  case ret =>
    obtain h0 | ⟨j, hj⟩ := sp_empty_or_top s
    · cases exec_unique h (exec_ret_of_empty h0)
      exact exec_ret_of_empty (s := s.withDevices d e k x) h0
    · cases exec_unique h (exec_ret_of_pos j hj)
      exact exec_ret_of_pos (s := s.withDevices d e k x) j hj
  case call nnn =>
    obtain h16 | ⟨j, hj⟩ := sp_full_or_free s
    · cases exec_unique h (exec_call_of_full nnn h16)
      exact exec_call_of_full (s := s.withDevices d e k x) nnn h16
    · cases exec_unique h (exec_call_of_lt nnn j hj)
      exact exec_call_of_lt (s := s.withDevices d e k x) nnn j hj
  case seImm | sneImm | seReg =>
    cases exec_unique h (exec_of_skipCondition rfl)
    rw [exec_of_skipCondition rfl, skipIf_eq, skipIf_eq]
    rfl
  all_goals
    cases exec_unique h rfl
    rfl

/-- A step does the same with any values of the four fields: it fetches and decodes the same word,
and the record of a fault does not hold them. -/
theorem step_withDevices (h : step s = .next t) :
    step (s.withDevices d e k x) = .next (t.withDevices d e k x) := by
  obtain ⟨hs, ⟨hw, rfl⟩ | ⟨w, err, hw, hd, rfl⟩ | ⟨w, i, hw, hd, he, ht⟩ |
    ⟨w, i, u, r, hw, hd, he, hr, rfl⟩⟩ := step_cases h
  · exact step_fetch_fault (s := s.withDevices d e k x) hs hw
  · exact step_decode_fault (s := s.withDevices d e k x) hs hw hd
  · rw [step_decoded (s := s.withDevices d e k x) hs hw hd, beginCycle_withDevices,
      exec_withDevices d e k x he]
    exact endCycle_completed ht
  · rw [step_decoded (s := s.withDevices d e k x) hs hw hd, beginCycle_withDevices,
      exec_withDevices d e k x he]
    exact endCycle_raised hr

end

theorem step_keeps_devices {s t : State} (h : step s = .next t) :
    t.delayTimer = s.delayTimer ∧ t.soundTimer = s.soundTimer ∧ t.keypad = s.keypad ∧
      t.index = s.index := by
  obtain ⟨-, ⟨-, rfl⟩ | ⟨w, e, -, -, rfl⟩ | ⟨w, i, -, -, he, -⟩ |
    ⟨w, i, u, r, -, -, -, -, rfl⟩⟩ := step_cases h
  · exact ⟨rfl, rfl, rfl, rfl⟩
  · exact ⟨rfl, rfl, rfl, rfl⟩
  · obtain ⟨-, hindex, hdelay, hsound, hkeys, -⟩ := exec_unwritten_fields he
    exact ⟨hdelay, hsound, hkeys, hindex⟩
  · exact ⟨rfl, rfl, rfl, rfl⟩

/-- Settles O50: a step writes none of the four fields, and it reads none. -/
theorem devicesDoNotInfluenceTheCycle : Obligations.DevicesDoNotInfluenceTheCycle := by
  intro s t d e k x h
  obtain ⟨hdelay, hsound, hkeys, hindex⟩ := step_keeps_devices h
  exact ⟨hdelay, hsound, hkeys, hindex, step_withDevices d e k x h⟩

/-! ### A recorded fault as the host sees it (60_exceptions.md R165, R166) -/

/-- What holds of a block from the cycle that faulted with `r` until `Reset`. -/
structure Block.HaltedBy (r : FaultRecord) (b : Block) : Prop where
  /-- The record. -/
  fault : b.state.fault = some r
  /-- A `Cycle` has been called. -/
  phase : b.phase = .running

theorem Block.HaltedBy.readFault {r : FaultRecord} {b : Block} (h : b.HaltedBy r) :
    b.apply .readFault = (b, .faultStatus (some r)) := by
  rw [← h.fault]
  rfl

theorem Block.HaltedBy.cycle {r : FaultRecord} {b : Block} (h : b.HaltedBy r) :
    b.apply .cycle = (b, .faulted r) := by
  simp only [Block.apply, Block.cycle, step_halted h.fault, ← h.phase]

/-- Only `Reset` ends the halt (R165). -/
theorem Block.HaltedBy.apply {r : FaultRecord} {b : Block} (op : BlockOp)
    (ho : op.isReset = false) (h : b.HaltedBy r) : (b.apply op).1.HaltedBy r := by
  obtain ⟨hfault, hphase⟩ := apply_keeps_fault ho h.fault h.phase
  exact ⟨hfault, hphase⟩

theorem Block.restart_fits {base : Nat} {bytes : List Byte} (b : Block)
    (h : base + bytes.length ≤ 0x200) :
    b.restart base bytes = ({ state := resetWith base bytes, phase := .fresh }, .ok) := if_pos h

/-- Settles O55: the faulting cycle halts the block, every operation but `Reset` keeps it halted,
and the state of a `Reset` holds no fault. -/
theorem faultIsReportedUntilReset : Obligations.FaultIsReportedUntilReset := by
  intro b t r h hr
  have hcycle : b.apply .cycle = ({ state := t, phase := .running }, .faulted r) :=
    Block.cycle_faulted h hr
  refine ⟨hcycle, fun ops hops => ?_⟩
  have hhalted : (Block.run ops (b.apply .cycle).1).HaltedBy r :=
    Block.run_keeps_without_reset (fun op _ => Block.HaltedBy.apply op) hops (hcycle ▸ ⟨hr, rfl⟩)
  refine ⟨hhalted.readFault, hhalted.cycle, fun base bytes seed hfits => ?_⟩
  simp only [Block.apply, Block.restart_fits _ hfits]
  rfl

/-! ### The host's operations on the devices (60_exceptions.md R175 to R180) -/

/-- A timer counts down to 0 and stays there, as natural subtraction does. -/
theorem tickTimer_toNat (t : Byte) : (tickTimer t).toNat = t.toNat - 1 := by
  unfold tickTimer
  split
  case isTrue h =>
    subst h
    rfl
  case isFalse h => bv_omega

/-- Settles O51, by the tick of each timer. -/
theorem timerTickCountsDownToZero : Obligations.TimerTickCountsDownToZero := fun b =>
  ⟨timerTick b.state, rfl, rfl, tickTimer_toNat _, tickTimer_toNat _⟩

/-- Settles O52: the keypad is the one before with key `k` set. -/
theorem setKeyWritesOneKey : Obligations.SetKeyWritesOneKey := by
  refine fun b k v => ⟨setKey k v b.state, rfl, rfl, fun j => ?_⟩
  simp [setKey, Vector.getElem_set, Fin.ext_iff, eq_comm]

/-- Settles O53: `readSound` is the test. -/
theorem readSoundTellsNonZeroTimer : Obligations.ReadSoundTellsNonZeroTimer := by
  intro b
  have hsound : readSound b.state = decide (b.state.soundTimer ≠ 0x00#8) :=
    Bool.eq_iff_iff.mpr (by simp [readSound])
  rw [← hsound]
  rfl

/-- The number behind the parameter is below 2^32 - 1, so its successor does not wrap to 0. -/
theorem pixelOnWord_ne_zero : Config.pixelOnWord ≠ 0x00000000#32 := by
  have hlt := Config.pixelOnIndex.isLt
  unfold Config.pixelOnWord
  bv_omega

/-- Settles O54: each cell is rendered on its own. -/
theorem readFramebufferRendersEachCell : Obligations.ReadFramebufferRendersEachCell := fun b =>
  ⟨readFramebuffer b.state, rfl, pixelOnWord_ne_zero, fun _ => Vector.getElem_map _ _⟩

end Sys2Proof.Machine
end

section
/-! SUPPORT. The state after a `Reset` (spec/70_reset_and_hazards.md R190, R192). -/

namespace Sys2Proof.Machine

/-- What each address reads as after a `Reset` whose font fits (20_memory.md R69). -/
theorem resetWith_memRead {base : Nat} {bytes : List Byte} (hfits : base + bytes.length ≤ 0x200)
    {a : Nat} (ha : a ≤ 0xFFF) : memRead a (resetWith base bytes) = some (
      if base ≤ a ∧ a < base + bytes.length then bytes.getD (a - base) 0x00#8 else 0x00#8) := by
  rw [memRead_of_lt _ (by omega), resetWith_memory, fontMemory_read, fontByte_eq hfits]

/-- A `Reset` with the machine's own font parameters is the reset state. -/
theorem resetWith_config : resetWith Config.fontBase.val Config.fontBytes = State.reset := by
  rw [resetWith, fontMemory_config]
  rfl

/-- Settles O3: a font that fits is accepted from any block, and the state after it is
`resetWith`. -/
theorem hostResetReplacesTheState : Obligations.HostResetReplacesTheState := by
  constructor
  · intro b base bytes seed hfits
    exact ⟨resetWith base bytes, Block.restart_fits b hfits, rfl, rfl, fontMemory_wf base bytes,
      fun _ => resetWith_memRead hfits⟩
  · intro b seed
    rw [← resetWith_config]
    exact Block.restart_fits b font_fits

/-- Settles O2: the fields by `State.reset`, memory by the font that the machine's own `Reset`
writes. -/
theorem resetLeavesEveryFieldAsStated : Obligations.ResetLeavesEveryFieldAsStated := by
  have hmem (a : Nat) (ha : a ≤ 0xFFF) := resetWith_memRead font_fits ha
  rw [resetWith_config] at hmem
  exact ⟨fun _ => by simp [State.reg, State.reset], fun _ => by simp [State.reset],
    fun _ => by simp [State.reset], reset_inv.fb_off, reset_inv.index_zero,
    rfl, rfl, rfl, rfl, rfl, rfl, font_fits, hmem, fun _ ha => memRead_of_ge _ ha⟩

/-- Settles O47: the base case of the invariant. -/
theorem resetMeetsTheInvariant : Obligations.ResetMeetsTheInvariant := reset_inv

end Sys2Proof.Machine
end

section
/-! SUPPORT. The end of a run (spec/70_reset_and_hazards.md R202): the cycle of a jump to itself,
and what `runToEnd` answers, by induction over the cycles it runs. -/

namespace Sys2Proof.Machine

/-! ### The jump to itself (R202, case (b)) -/

/-- The cycle of a JP loads its address (40_flow.md R112). -/
theorem step_jp {s : State} {nnn : Addr} (hs : s.Running)
    (hw : fetchWord s = some (encode (.jp nnn))) :
    step s = .next { s with pc := addrOperand nnn, opcode := encode (.jp nnn) } :=
  step_of_exec_running hs rfl hw rfl hs

/-- At a jump to its own address the cycle leaves `pc` as it is. -/
theorem step_selfJump {s : State} {nnn : Addr} (hs : s.Running)
    (hw : fetchWord s = some (encode (.jp nnn))) (hpc : s.pc = addrOperand nnn) :
    step s = .next { s with opcode := encode (.jp nnn) } := by
  rw [step_jp hs hw, ← hpc]

/-- Settles O27: the first cycle writes `opcode`, which neither the fetch nor the test reads, and
the second writes the same word again. -/
theorem selfJumpLoopsForever : Obligations.SelfJumpLoopsForever := by
  rintro s ⟨hs, nnn, hw, hpc⟩
  exact ⟨encode (.jp nnn), { s with opcode := encode (.jp nnn) }, hw, rfl,
    step_selfJump hs hw hpc, step_selfJump (s := { s with opcode := _ }) hs hw hpc,
    hs, nnn, hw, hpc⟩

/-! ### What `endsHere` says, as `↔` -/

theorem endsHere_eq_faulted {s : State} {f : FaultRecord} :
    endsHere s = some (.faulted f) ↔ s.fault = some f := by
  rcases endsHere_cases s with ⟨g, hg, he⟩ | ⟨⟨hrun, -⟩, he⟩ | ⟨hrun, -, he⟩
  · simp [he, hg]
  · simp [he, show s.fault = none from hrun]
  · simp [he, show s.fault = none from hrun]

theorem endsHere_eq_selfJump {s : State} : endsHere s = some .selfJump ↔ EndsAtSelfJump s := by
  rcases endsHere_cases s with ⟨g, hg, he⟩ | ⟨hjump, he⟩ | ⟨-, hjump, he⟩
  · simp [he, EndsAtSelfJump, hg]
  · simp [he, hjump]
  · simp [he, hjump]

theorem endsHere_eq_none {s : State} :
    endsHere s = none ↔ ¬ EndsFaulted s ∧ ¬ EndsAtSelfJump s := by
  rcases endsHere_cases s with ⟨g, hg, he⟩ | ⟨hjump, he⟩ | ⟨hrun, hjump, he⟩
  · simp [he, EndsFaulted, hg]
  · simp [he, hjump]
  · simp [he, hjump, EndsFaulted, show s.fault = none from hrun]

/-- The count is no property of a state. -/
theorem endsHere_ne_countReached (s : State) : endsHere s ≠ some .countReached := by
  rcases endsHere_cases s with ⟨_, -, he⟩ | ⟨-, he⟩ | ⟨-, -, he⟩ <;> simp [he]

/-- A state that ends no run has a step. -/
theorem step_of_endsHere_none {s : State} (h : endsHere s = none) : ∃ t, step s = .next t :=
  step_answers_next (Option.eq_none_iff_forall_ne_some.mpr fun f hf =>
    (endsHere_eq_none.mp h).1 ⟨f, hf⟩)

/-! ### Runs by their first cycle -/

theorem stepN_succ {s t : State} (k : Nat) (h : step s = .next t) :
    stepN (k + 1) s = stepN k t := by
  simp only [stepN, h]

theorem endsAfter_zero {s : State} : EndsAfter 0 s ↔ endsHere s ≠ none := by
  simp only [EndsAfter, ne_eq, endsHere_eq_none]
  tauto

theorem not_endsAfter_succ {s : State} {e : RunEnd} (k : Nat) (h : endsHere s = some e) :
    ¬ EndsAfter (k + 1) s := fun ⟨hfault, hjump, _⟩ => by
  cases h.symm.trans (endsHere_eq_none.mpr ⟨hfault, hjump⟩)

theorem endsAfter_succ {s t : State} (k : Nat) (h : endsHere s = none) (hs : step s = .next t) :
    EndsAfter (k + 1) s ↔ EndsAfter k t := by
  obtain ⟨hfault, hjump⟩ := endsHere_eq_none.mp h
  simp [EndsAfter, hfault, hjump, hs]

/-- The run from a state with a named count, cycle by cycle: what `runToEnd` computes
(`runToEnd_runsTo`), as a relation to induct over. -/
inductive RunsTo : Nat → State → RunResult → Prop where
  /-- Case (a) or (b) of R202 holds of the state. -/
  | ended (n : Nat) {s : State} {e : RunEnd} (h : endsHere s = some e) : RunsTo n s ⟨e, 0, s⟩
  /-- Neither holds and no cycle is left: case (c). -/
  | counted {s : State} (h : endsHere s = none) : RunsTo 0 s ⟨.countReached, 0, s⟩
  /-- Neither holds and a cycle is left. -/
  | cycle {n : Nat} {s t : State} {r : RunResult} (h : endsHere s = none) (hs : step s = .next t)
      (hr : RunsTo n t r) : RunsTo (n + 1) s { r with cycles := r.cycles + 1 }

/-- `runToEnd` always answers, and its answer is the run's. -/
theorem runToEnd_runsTo (n : Nat) (s : State) : ∃ r, runToEnd n s = some r ∧ RunsTo n s r := by
  induction n generalizing s with
  | zero =>
    cases h : endsHere s with
    | some e => exact ⟨_, by simp only [runToEnd, h], .ended 0 h⟩
    | none => exact ⟨_, by simp only [runToEnd, h], .counted h⟩
  | succ n ih =>
    cases h : endsHere s with
    | some e => exact ⟨_, by simp only [runToEnd, h], .ended (n + 1) h⟩
    | none =>
      obtain ⟨t, hs⟩ := step_of_endsHere_none h
      obtain ⟨r, hr, hrun⟩ := ih t
      exact ⟨_, by simp only [runToEnd, h, hs, hr, Option.map_some], .cycle h hs hrun⟩

/-! ### Where a run ends and what its cause says -/

section
variable {n : Nat} {s : State} {r : RunResult}

theorem RunsTo.cycles_le (hrun : RunsTo n s r) : r.cycles ≤ n := by
  induction hrun with
  | ended n h => exact Nat.zero_le n
  | counted h => exact Nat.le_refl 0
  | cycle h hs hr ih => exact Nat.succ_le_succ ih

theorem RunsTo.stepN_cycles (hrun : RunsTo n s r) : stepN r.cycles s = some r.state := by
  induction hrun with
  | ended n h => rfl
  | counted h => rfl
  | cycle h hs hr ih => exact (stepN_succ _ hs).trans ih

/-- No state before the end of a run is an end. -/
theorem RunsTo.not_ended_before (hrun : RunsTo n s r) (k : Nat) (hk : k < r.cycles) :
    ∃ t, stepN k s = some t ∧ endsHere t = none := by
  induction hrun generalizing k with
  | ended n h => exact absurd hk (Nat.not_lt_zero k)
  | counted h => exact absurd hk (Nat.not_lt_zero k)
  | cycle h hs hr ih =>
    cases k with
    | zero => exact ⟨_, rfl, h⟩
    | succ k =>
      rw [stepN_succ k hs]
      exact ih k (Nat.lt_of_succ_lt_succ hk)

/-- The cause is what the end state is an end by, and the count only where it is none. -/
theorem RunsTo.cause_eq (hrun : RunsTo n s r) :
    r.cause = (endsHere r.state).getD .countReached := by
  induction hrun with
  | ended n h => simp [h]
  | counted h => simp [h]
  | cycle h hs hr ih => exact ih

/-- A run that ends at neither (a) nor (b) runs its whole count. -/
theorem RunsTo.cycles_eq (hrun : RunsTo n s r) (hend : endsHere r.state = none) :
    r.cycles = n := by
  induction hrun with
  | ended n h => cases h.symm.trans hend
  | counted h => rfl
  | cycle h hs hr ih => exact congrArg Nat.succ (ih hend)

theorem RunsTo.cause_eq_countReached (hrun : RunsTo n s r) :
    r.cause = .countReached ↔ endsHere r.state = none := by
  rw [hrun.cause_eq]
  cases he : endsHere r.state with
  | none => simp
  | some e => simpa [he] using endsHere_ne_countReached r.state

/-- A cause other than the count is read off the end state. -/
theorem RunsTo.cause_eq_iff (hrun : RunsTo n s r) {e : RunEnd} (hcount : e ≠ .countReached) :
    r.cause = e ↔ endsHere r.state = some e := by
  rw [hrun.cause_eq]
  cases endsHere r.state with
  | none => simp [hcount.symm]
  | some e' => simp

/-- Up to the count, the run with a count and the run without one end together. -/
theorem RunsTo.endsAfter_iff (hrun : RunsTo n s r) (k : Nat) (hk : k ≤ n) :
    EndsAfter k s ↔ r.cycles = k ∧ r.cause ≠ .countReached := by
  rw [ne_eq, hrun.cause_eq_countReached]
  induction hrun generalizing k with
  | ended n h =>
    cases k with
    | zero => simp [endsAfter_zero]
    | succ k => simp [not_endsAfter_succ k h]
  | counted h =>
    obtain rfl := Nat.le_zero.mp hk
    simp [endsAfter_zero]
  | cycle h hs hr ih =>
    cases k with
    | zero => simp [endsAfter_zero, h]
    | succ k => simpa [endsAfter_succ k h hs] using ih k (Nat.le_of_succ_le_succ hk)

end

/-- Settles O57: each clause is one fact of the run that `runToEnd` computes. -/
theorem runEndsAtTheFirstOfThree : Obligations.RunEndsAtTheFirstOfThree := by
  intro n s
  obtain ⟨r, hr, hrun⟩ := runToEnd_runsTo n s
  refine ⟨r, hr, hrun.cycles_le, hrun.stepN_cycles, ?before, ?faulted, ?selfJump, ?count,
    fun k hk hkn => (hrun.endsAfter_iff k hkn).mp hk,
    fun hc => (hrun.endsAfter_iff _ hrun.cycles_le).mpr ⟨rfl, hc⟩⟩
  case before =>
    intro k hk
    obtain ⟨t, ht, hend⟩ := hrun.not_ended_before k hk
    exact ⟨t, ht, endsHere_eq_none.mp hend⟩
  case faulted =>
    intro f
    rw [hrun.cause_eq_iff (by simp), endsHere_eq_faulted]
  case selfJump => rw [hrun.cause_eq_iff (by simp), endsHere_eq_selfJump]
  case count =>
    rw [hrun.cause_eq_countReached, ← endsHere_eq_none]
    exact ⟨fun hend => ⟨hrun.cycles_eq hend, hend⟩, And.right⟩

end Sys2Proof.Machine
end
